-- ==== Sys2Proof/Word.lean ====
section
/-! DEFINITION. The widths of the block's quantities (00_scope.md R12, R13). All are unsigned; nothing is sign-extended. -/

namespace Sys2Proof

/-- A 32-bit value: ACC (R18), a code (R61), the operand V of WRITE (R66). -/
abbrev Word := BitVec 32

/-- An input symbol or an output byte (R44, R45). -/
abbrev Byte := BitVec 8

/-- A bit length of 0 to 63: TBL_LEN, TM_LEN, the operand N of WRITE (R61, D9); also the width of FILL (R19, D10). -/
abbrev Len := BitVec 6

/-- A command word `CW[47:0]` (R66). It is one integer on a parallel port and has no byte layout (R50). -/
abbrev CmdWord := BitVec 48

/-- A response word `RESP[10:0]` (R72). -/
abbrev RespWord := BitVec 11

end Sys2Proof
end

