-- ==== Sys2Proof/Config.lean ====
section
/-! DEFINITION. The named parameters of the block (00_scope.md R12). The spec leaves none open and the block draws no value from
anywhere (10_state.md R39), so there is no free value here. The table and the terminal marker are data of a run, held in State. -/

namespace Sys2Proof.Config

/-- `FILL_MAX`, the largest legal fill count (R12, R20), which is also `ACC_W`. -/
abbrev fillMax : Nat := 32

/-- The first bit length no write accepts: `WLEN_MAX + 1`, `WLEN_MAX` being 31 (R12, R82 case (b), C1, D8). -/
abbrev lenLimit : Nat := 32

/-- `DRAIN_MAX`, the most bytes one drain can emit (R12, R104). -/
abbrev drainMax : Nat := 4

/-- `SAFE_LEN`, the largest length that cannot overflow in a run (R12, R113). -/
abbrev safeLen : Nat := 25

end Sys2Proof.Config
end

