-- ==== Sys2Proof/Syntax.lean ====
section
/-! DEFINITION. The eleven commands (30_encoding.md R69, R75), the pseudo-instruction COMPRESS (R76, R108) and the table entry (R61). -/

namespace Sys2Proof

/-- One entry of the code table, and the shape of the terminal marker: `TBL_LEN` in bits [37:32], `TBL_CODE` in bits [31:0] (R61, R63). -/
structure TblEntry where
  len  : Len
  code : Word
deriving DecidableEq, Repr

/-- The commands: the operands are typed by the widths of their fields (R67, R68), so every term is a command. -/
inductive Instr where
  /-- `WRITE v, n` (R82). -/
  | write (v : Word) (n : Len)
  /-- `READB` (R84). -/
  | readb
  /-- `BOFF` (R86). -/
  | boff
  /-- `ENC b` (R92). -/
  | enc (b : Byte)
  /-- `TERM` (R93). -/
  | term
  /-- `FIN` (R94). -/
  | fin
  /-- `NEXT` (R96). -/
  | next
  /-- `START` (R102). -/
  | start
  /-- `DRAIN` (R104). -/
  | drain
  /-- `PUSH b` (R105). -/
  | push (b : Byte)
  /-- `END` (R106). -/
  | endRun
deriving DecidableEq, Repr

/-- The pseudo-instruction `COMPRESS b_1, ..., b_k`, `k + 2` commands (R76, R108). -/
def compress (bs : List Byte) : List Instr :=
  .start :: (bs.map .push ++ [.endRun])

end Sys2Proof
end

