-- ==== Sys2Proof/WellFormed.lean ====
section
/-! DEFINITION. What is well formed: a command word (30_encoding.md R69 to R71), a code (00_scope.md R17), a table entry (R62),
a terminal marker (R63), a command's operand (70_reset_and_hazards.md R145). A term of `Instr` cannot be ill formed as syntax:
its operands are typed by their widths. -/

namespace Sys2Proof

/-- A row of the opcode map as R69 prints it: a word `CW` selects the row when `CW & mask = match`. -/
structure OpRow where
  mnemonic : String
  pattern  : CmdWord
  mask     : CmdWord
deriving DecidableEq, Repr

/-- `CW & mask = match` (R69). -/
def OpRow.selects (r : OpRow) (w : CmdWord) : Bool :=
  (w &&& r.mask) == r.pattern

/-- The opcode map (R69), row by row in the table's order. -/
def opcodeMap : List OpRow :=
  [ ⟨"WRITE", 0x100000000000, 0xFFC000000000⟩,
    ⟨"READB", 0x110000000000, 0xFFFFFFFFFFFF⟩,
    ⟨"BOFF",  0x120000000000, 0xFFFFFFFFFFFF⟩,
    ⟨"ENC",   0x200000000000, 0xFFFFFFFFFF00⟩,
    ⟨"TERM",  0x210000000000, 0xFFFFFFFFFFFF⟩,
    ⟨"FIN",   0x220000000000, 0xFFFFFFFFFFFF⟩,
    ⟨"NEXT",  0x230000000000, 0xFFFFFFFFFFFF⟩,
    ⟨"START", 0x300000000000, 0xFFFFFFFFFFFF⟩,
    ⟨"DRAIN", 0x310000000000, 0xFFFFFFFFFFFF⟩,
    ⟨"PUSH",  0x320000000000, 0xFFFFFFFFFF00⟩,
    ⟨"END",   0x330000000000, 0xFFFFFFFFFFFF⟩ ]

/-- The mnemonic of a command's row (R69, R75). -/
def Instr.mnemonic : Instr → String
  | .write _ _ => "WRITE"
  | .readb => "READB"
  | .boff => "BOFF"
  | .enc _ => "ENC"
  | .term => "TERM"
  | .fin => "FIN"
  | .next => "NEXT"
  | .start => "START"
  | .drain => "DRAIN"
  | .push _ => "PUSH"
  | .endRun => "END"

/-- A word is legal when some row of the opcode map selects it, illegal otherwise (R70, R71). -/
def legalWord (w : CmdWord) : Bool :=
  opcodeMap.any (fun r => r.selects w)

/-- A well-formed code: `code < 2^bit_length` (R17). -/
def wellFormedCode (v : Word) (n : Len) : Bool :=
  decide (v.toNat < 2 ^ n.toNat)

/-- A well-formed table entry (R62, R27). -/
def TblEntry.wellFormed (e : TblEntry) : Bool :=
  wellFormedCode e.code e.len

/-- Every entry of the table is well formed (R27, R141). -/
def wellFormedTable (tbl : Vector TblEntry 256) : Bool :=
  tbl.all TblEntry.wellFormed

/-- The marker, if one is configured, is well formed (R28, R63). -/
def wellFormedMarker (present : Bool) (code : Word) (len : Len) : Bool :=
  !present || wellFormedCode code len

/-- The code a command itself carries is well formed (R145): only WRITE carries one. -/
def Instr.wellFormedOperand : Instr → Bool
  | .write v n => wellFormedCode v n
  | .readb | .boff | .enc _ | .term | .fin | .next | .start | .drain | .push _ | .endRun => true

end Sys2Proof
end

