-- ==== Sys2Proof/Decode.lean ====
section
/-! DEFINITION. The command word (30_encoding.md R66 to R71): its fields, the decoder, which is total and rejects by name, and
after it the encoder. The decoder reads no state (R70). -/

namespace Sys2Proof

/-- Why a word is illegal (R71). Every one of these raises `IllegalCommand` (R122); the block does not report which. -/
inductive IllegalReason where
  /-- `OP` is not one of the eleven values of R69. -/
  | opUnassigned
  /-- `RSV` is not 0. -/
  | rsvNonzero
  /-- `N` is not 0 in format B or Z. -/
  | nNonzero
  /-- `V[31:8]` is not 0 in format B, or `V` is not 0 in format Z. -/
  | vNonzero
deriving DecidableEq, Repr

/-- What the decoder makes of a word: exactly one command, or illegal (R70). -/
inductive Decoded where
  | command (i : Instr)
  | illegal (why : IllegalReason)
deriving DecidableEq, Repr

/-- `OP`, bits [47:40] (R66). -/
def opField (w : CmdWord) : BitVec 8 := w.extractLsb' 40 8

/-- `RSV`, bits [39:38] (R66). -/
def rsvField (w : CmdWord) : BitVec 2 := w.extractLsb' 38 2

/-- `N`, bits [37:32], unsigned, not extended or scaled (R66, R68). -/
def nField (w : CmdWord) : Len := w.extractLsb' 32 6

/-- `V`, bits [31:0], used whole (R66, R68). -/
def vField (w : CmdWord) : Word := w.extractLsb' 0 32

/-- The byte operand `V[7:0]` (R66, R68). -/
def byteField (w : CmdWord) : Byte := w.extractLsb' 0 8

/-- `V[31:8]`, which format B wants zero (R67). -/
def vHighField (w : CmdWord) : BitVec 24 := w.extractLsb' 8 24

/-- Format W: both `N` and `V` carry operands (R67). -/
def formatW (w : CmdWord) (build : Word → Len → Instr) : Decoded :=
  if rsvField w ≠ 0 then .illegal .rsvNonzero
  else .command (build (vField w) (nField w))

/-- Format B: `V[7:0]` carries a byte, `N` and `V[31:8]` are zero (R67). -/
def formatB (w : CmdWord) (build : Byte → Instr) : Decoded :=
  if rsvField w ≠ 0 then .illegal .rsvNonzero
  else if nField w ≠ 0 then .illegal .nNonzero
  else if vHighField w ≠ 0 then .illegal .vNonzero
  else .command (build (byteField w))

/-- Format Z: no operand, `N` and `V` are zero (R67). -/
def formatZ (w : CmdWord) (i : Instr) : Decoded :=
  if rsvField w ≠ 0 then .illegal .rsvNonzero
  else if nField w ≠ 0 then .illegal .nNonzero
  else if vField w ≠ 0 then .illegal .vNonzero
  else .command i

/-- The decoder (R69, R70): every word is exactly one command or illegal. -/
def decode (w : CmdWord) : Decoded :=
  match (opField w).toNat with
  | 0x10 => formatW w .write
  | 0x11 => formatZ w .readb
  | 0x12 => formatZ w .boff
  | 0x20 => formatB w .enc
  | 0x21 => formatZ w .term
  | 0x22 => formatZ w .fin
  | 0x23 => formatZ w .next
  | 0x30 => formatZ w .start
  | 0x31 => formatZ w .drain
  | 0x32 => formatB w .push
  | 0x33 => formatZ w .endRun
  | _ => .illegal .opUnassigned

/-- The word with the given fields and `RSV = 0` (R66). -/
def assemble (op : BitVec 8) (n : Len) (v : Word) : CmdWord :=
  op ++ (0#2) ++ n ++ v

/-- The encoder (R69, R75). -/
def encode : Instr → CmdWord
  | .write v n => assemble 0x10 n v
  | .readb => assemble 0x11 0 0
  | .boff => assemble 0x12 0 0
  | .enc b => assemble 0x20 0 (b.setWidth 32)
  | .term => assemble 0x21 0 0
  | .fin => assemble 0x22 0 0
  | .next => assemble 0x23 0 0
  | .start => assemble 0x30 0 0
  | .drain => assemble 0x31 0 0
  | .push b => assemble 0x32 0 (b.setWidth 32)
  | .endRun => assemble 0x33 0 0

/-- The command word of a table row's bits: the table numbers its one 48-bit word as R66 does, and bits at or above `nbits` are 0. -/
def tableWord (nbits w : Nat) : CmdWord :=
  BitVec.ofNat 48 (w % 2 ^ nbits)

/-- The command the decoder reads from a row's bits, none where it rejects them. -/
def decodeTableWord (nbits w : Nat) : Option Instr :=
  match decode (tableWord nbits w) with
  | .command i => some i
  | .illegal _ => none

end Sys2Proof
end

