-- ==== Sys2Proof/Machine/State.lean ====
section
/-! DEFINITION. The state as plain data: the block's four registers (10_state.md R39), the configuration it reads and does not own
(R26, R28), the observations of a run (R37), and the host's sequence of inputs with its index (R31). -/

namespace Sys2Proof.Machine

/-- Reasons for `Host.Outcome.fault`. There is none: every fault of this hardware is a fault ENTRY (60_exceptions.md R124), which
leaves a next state with FAULT = 1, and the step is total (10_state.md R39). Safe: nothing is stopped that the spec lets go on. -/
inductive Fault
deriving DecidableEq, Repr

/-- Reasons for `Host.Outcome.refused`. -/
inductive Refusal where
  /-- Raised by an arm of `exec` whose command has no meaning yet. Safe. No arm raises it: every command is modelled. -/
  | notModelled (mnemonic : String)
deriving DecidableEq, Repr

/-- A response word by its fields (30_encoding.md R72): `ST` is 0 OK, 1 RAISED, 2 DEAD; 3 is never produced. -/
structure Resp where
  st    : BitVec 2
  valid : Bool
  data  : Byte
deriving DecidableEq, Repr

/-- What the host presents (70_reset_and_hazards.md R152): a command word, any word at all, or the signal RST (R139). -/
inductive HostInput where
  | command (w : CmdWord)
  | rst
deriving DecidableEq, Repr

/-- The state. -/
structure State where
  /-- `ACC`, the 32-bit accumulator register (R18). -/
  acc       : Word
  /-- `FILL`, the fill count in its 6-bit register (R19); 33 to 63 are unreachable (R20). -/
  fill      : Len
  /-- `FAULT`, the sticky fault bit (R24). -/
  fault     : Bool
  /-- `CAUSE`, the code of the first fault since reset (R25). -/
  cause     : BitVec 2
  /-- `TBL_CODE` and `TBL_LEN`, 256 entries (R26, R41); read-only to the block (R42). -/
  tbl       : Vector TblEntry 256
  /-- `TM_PRESENT` (R28). -/
  tmPresent : Bool
  /-- `TM_CODE` (R28). -/
  tmCode    : Word
  /-- `TM_LEN` (R28). -/
  tmLen     : Len
  /-- `OUT`, the bytes appended so far, oldest first (R29, R45). -/
  out       : List Byte
  /-- The responses returned so far, oldest first (R37, R72). -/
  resps     : List Resp
  /-- The host's sequence of inputs (R31, R152). -/
  inputs    : List HostInput
  /-- The index of the next input (R31). -/
  pos       : Nat
deriving DecidableEq, Repr

/-- The machine right after reset (R38). ACC, FILL, FAULT and CAUSE are the spec's. The table and the marker have no reset value in
the spec: zero here, DESIGN CHOICE, unsafe (log entries 2 and 3). OUT, the responses and the inputs are empty, DESIGN CHOICE (log
entries 4, 5, 6). -/
def State.reset : State :=
  { acc := 0, fill := 0, fault := false, cause := 0,
    tbl := Vector.replicate 256 ⟨0, 0⟩, tmPresent := false, tmCode := 0, tmLen := 0,
    out := [], resps := [], inputs := [], pos := 0 }

end Sys2Proof.Machine
end

