-- ==== Sys2Proof/Machine/Flags.lean ====
section
/-! DEFINITION. The block has no condition codes (10_state.md R32). What stands in their place: the overflow test (40_accumulator.md
R82), the cause codes (60_exceptions.md R123) and the response words with their layout (30_encoding.md R72, R73). -/

namespace Sys2Proof.Machine

/-- CAUSE of `AccumulatorOverflow` (R120, R123). -/
def causeOverflow : BitVec 2 := 1

/-- CAUSE of `IllegalCommand` (R122, R123). -/
def causeIllegal : BitVec 2 := 2

/-- A write of `n` bits overflows: `n >= 32 or FILL + n > 32`, on the true sum (R82, R87, R120). -/
def overflows (fill n : Len) : Bool :=
  decide (Config.lenLimit ≤ n.toNat) || decide (Config.fillMax < fill.toNat + n.toNat)

/-- The boundary offset `FILL mod 8` (R86, R87). -/
def boundaryOffset (fill : Len) : Nat :=
  fill.toNat % 8

/-- Zero-extension of a cause code to `DATA` (R73). -/
def causeData (c : BitVec 2) : Byte :=
  c.setWidth 8

/-- OK with nothing to return (R73). -/
def respOk : Resp := ⟨0, false, 0⟩

/-- OK with a result (R73). -/
def respData (d : Byte) : Resp := ⟨0, true, d⟩

/-- OK with a count of bytes appended to OUT (R73, D30). -/
def respCount (k : Nat) : Resp := respData (BitVec.ofNat 8 k)

/-- This command raised a fault with cause `c` (R73, R124). -/
def respRaised (c : BitVec 2) : Resp := ⟨1, true, causeData c⟩

/-- The command was ignored; `c` is the cause kept from the first fault (R73, R125). -/
def respDead (c : BitVec 2) : Resp := ⟨2, true, causeData c⟩

/-- `RESP[10:0]`: ST in [10:9], VALID in [8], DATA in [7:0] (R72). -/
def respWord (r : Resp) : RespWord :=
  r.st ++ BitVec.ofBool r.valid ++ r.data

end Sys2Proof.Machine
end

