-- ==== Sys2Proof/Machine/Operands.lean ====
section
/-! DEFINITION. The two loads of the block (41_encoder.md R98): the table read of ENC and PUSH, and the marker read of TERM and END.
The other operands are fields of the command word (Decode.lean). -/

namespace Sys2Proof.Machine

/-- The table read `MemRead(b, 1)`: the operand byte is the index, unchanged, and code and length come as one pair (20_memory.md R41,
R43). Every index is valid (R54). -/
def tblRead (s : State) (b : Byte) : TblEntry :=
  s.tbl.get b.toFin

/-- The marker read: none when `TM_PRESENT = 0`, whose other two fields are then never looked at (10_state.md R28). -/
def markerRead (s : State) : Option TblEntry :=
  if s.tmPresent then some ⟨s.tmLen, s.tmCode⟩ else none

end Sys2Proof.Machine
end

