-- ==== Sys2Proof/Machine/Ops.lean ====
section
/-! DEFINITION. The shared operations: responding, fault entry and the faulted state (60_exceptions.md R124, R125), reset (70 R139),
the two tests every command begins with (40 R81), the bodies WRITE, READB, TERM, FIN and DRAIN that other rules execute in place
(00_scope.md R15), and the host's sequence of inputs (10 R31). -/

namespace Sys2Proof.Machine

/-- `mask(n) = 2^n - 1` for `0 <= n <= 32` (R14). -/
def mask (n : Nat) : Word :=
  BitVec.ofNat 32 (2 ^ n - 1)

/-! ### Responses and faults -/

/-- Return one response (R72). -/
def respond (r : Resp) (s : State) : State :=
  { s with resps := s.resps ++ [r] }

/-- Fault entry (R124), applied to the state BEFORE the command, so that every write it had prepared is discarded. -/
def raise (c : BitVec 2) (s : State) : State :=
  respond (respRaised c) { s with fault := true, cause := c }

/-- A command arriving while `FAULT = 1` (R125). -/
def ignore (s : State) : State :=
  respond (respDead s.cause) s

/-- The first test of every command (R81, R127): with `FAULT = 1` it is ignored, otherwise its rule gives the state `t`. -/
def command (s : State) (t : State) : State :=
  if s.fault then ignore s else t

/-- An illegal word (R81, R122, R127): ignored while `FAULT = 1`, otherwise `IllegalCommand`. -/
def illegalCommand (s : State) : State :=
  command s (raise causeIllegal s)

/-- The signal RST, taken between commands (R139). There is no return from a fault but this (R126). Table, marker and OUT are not
touched (R140); no response is added, and those already returned stay with the host. -/
def applyReset (s : State) : State :=
  { s with acc := 0, fill := 0, fault := false, cause := 0 }

/-! ### The accumulator -/

/-- The body of WRITE (R82): none where it raises `AccumulatorOverflow`, otherwise the shift, the OR of all of `v`, and the count.
The sum fits: `fill + n` is at most 32 here. -/
def writeBits (v : Word) (n : Len) (s : State) : Option State :=
  if overflows s.fill n then none
  else some { s with acc := (s.acc <<< n.toNat) ||| v, fill := s.fill + n }

/-- The body of READB (R84): none when fewer than 8 bits are queued, otherwise the oldest byte and the state without it. -/
def readByte (s : State) : Option (Byte × State) :=
  if s.fill.toNat < 8 then none
  else
    let f := s.fill.toNat - 8
    some ((s.acc >>> f).setWidth 8, { s with acc := s.acc &&& mask f, fill := BitVec.ofNat 6 f })

/-- READB and NEXT as commands: the optional byte goes to RESP and not to OUT (R84, R45, R73). -/
def readByteRespond (s : State) : State :=
  match readByte s with
  | none => respond respOk s
  | some (b, t) => respond (respData b) t

/-- `OUT <- OUT ++ [v]` (R45). -/
def appendOut (b : Byte) (s : State) : State :=
  { s with out := s.out ++ [b] }

/-- The loop of DRAIN (R104) with at most `fuel` turns: the state after it and the count `k`. -/
def drainLoop : Nat → State → State × Nat
  | 0, s => (s, 0)
  | fuel + 1, s =>
    match readByte s with
    | none => (s, 0)
    | some (b, t) =>
      let r := drainLoop fuel (appendOut b t)
      (r.1, r.2 + 1)

/-- DRAIN's body with its response (R104, R73). The loop runs `floor(FILL / 8)` times, so that many turns are enough. -/
def drainRespond (s : State) : State :=
  let r := drainLoop (s.fill.toNat / 8) s
  respond (respCount r.2) r.1

/-! ### The encoder's bodies -/

/-- The body of ENC (R92): one table read, one write. -/
def encBits (b : Byte) (s : State) : Option State :=
  writeBits (tblRead s b).code (tblRead s b).len s

/-- The body of TERM (R93): the marker is written if one is configured. -/
def termBits (s : State) : Option State :=
  match markerRead s with
  | none => some s
  | some m => writeBits m.code m.len s

/-- The body of FIN (R94): `8 - o` zero bits when the boundary offset `o` is not 0. -/
def padBits (s : State) : Option State :=
  let o := boundaryOffset s.fill
  if o ≠ 0 then writeBits 0 (BitVec.ofNat 6 (8 - o)) s else some s

/-- End a command whose body may raise: `AccumulatorOverflow` on the state `s` before the command (R124), or what `k` makes of the
body's state. -/
def settle (s : State) (body : Option State) (k : State → State) : State :=
  match body with
  | none => raise causeOverflow s
  | some t => k t

/-! ### The host's side -/

/-- The input the host presents next, none when it presents nothing more (R31). -/
def fetch (s : State) : Option HostInput :=
  s.inputs[s.pos]?

/-- The index advances by one (R31). -/
def advance (s : State) : State :=
  { s with pos := s.pos + 1 }

/-- The host supplies another table and marker: a move of the host outside every run (R141, C6), made by no step (log entry 1). -/
def configure (tbl : Vector TblEntry 256) (present : Bool) (code : Word) (len : Len) (s : State) : State :=
  { s with tbl := tbl, tmPresent := present, tmCode := code, tmLen := len }

/-- The sequence with `x` at index `k`, with RST in any place below `k` that was not there. -/
def placeInput (x : HostInput) (k : Nat) (xs : List HostInput) : List HostInput :=
  xs.take k ++ List.replicate (k - xs.length) .rst ++ x :: xs.drop (k + 1)

end Sys2Proof.Machine
end

