-- ==== Sys2Proof/Machine/Accumulator.lean ====
section
/-! DEFINITION. The accumulator commands WRITE, READB, BOFF (40_accumulator.md). -/

namespace Sys2Proof.Machine

/-- `WRITE v, n` (R82, R83). -/
def execWrite (v : Word) (n : Len) (s : State) : Host.Outcome State Fault Refusal :=
  .next (command s (settle s (writeBits v n s) (respond respOk)))

/-- `READB` (R84, R85). -/
def execReadb (s : State) : Host.Outcome State Fault Refusal :=
  .next (command s (readByteRespond s))

/-- `BOFF` (R86). -/
def execBoff (s : State) : Host.Outcome State Fault Refusal :=
  .next (command s (respond (respData (BitVec.ofNat 8 (boundaryOffset s.fill))) s))

end Sys2Proof.Machine
end

