-- ==== Sys2Proof/Machine/Encoder.lean ====
section
/-! DEFINITION. The encoder commands ENC, TERM, FIN, NEXT (41_encoder.md). -/

namespace Sys2Proof.Machine

/-- `ENC b` (R92). -/
def execEnc (b : Byte) (s : State) : Host.Outcome State Fault Refusal :=
  .next (command s (settle s (encBits b s) (respond respOk)))

/-- `TERM` (R93). -/
def execTerm (s : State) : Host.Outcome State Fault Refusal :=
  .next (command s (settle s (termBits s) (respond respOk)))

/-- `FIN` (R94, R95). -/
def execFin (s : State) : Host.Outcome State Fault Refusal :=
  .next (command s (settle s (padBits s) (respond respOk)))

/-- `NEXT` (R96): the same operation as READB. -/
def execNext (s : State) : Host.Outcome State Fault Refusal :=
  .next (command s (readByteRespond s))

end Sys2Proof.Machine
end

