-- ==== Sys2Proof/Machine/Run.lean ====
section
/-! DEFINITION. The run commands START, DRAIN, PUSH, END (42_run.md). -/

namespace Sys2Proof.Machine

/-- `START` (R102, R103): FAULT, CAUSE, OUT and the configuration are not touched. -/
def execStart (s : State) : Host.Outcome State Fault Refusal :=
  .next (command s (respond respOk { s with acc := 0, fill := 0 }))

/-- `DRAIN` (R104). -/
def execDrain (s : State) : Host.Outcome State Fault Refusal :=
  .next (command s (drainRespond s))

/-- `PUSH b` (R105): ENC, then DRAIN unless ENC raised. -/
def execPush (b : Byte) (s : State) : Host.Outcome State Fault Refusal :=
  .next (command s (settle s (encBits b s) drainRespond))

/-- `END` (R106): TERM, FIN, DRAIN, unless TERM raised. -/
def execEnd (s : State) : Host.Outcome State Fault Refusal :=
  .next (command s (settle s ((termBits s).bind padBits) drainRespond))

end Sys2Proof.Machine
end

