-- ==== Sys2Proof/Machine/Dispatch.lean ====
section
/-! DEFINITION. One arm per command, each one call of its meaning. -/

namespace Sys2Proof.Machine

def exec (i : Instr) (s : State) : Host.Outcome State Fault Refusal :=
  match i with
  | .write v n => Sys2Proof.Machine.execWrite v n s
  | .readb => Sys2Proof.Machine.execReadb s
  | .boff => Sys2Proof.Machine.execBoff s
  | .enc b => Sys2Proof.Machine.execEnc b s
  | .term => Sys2Proof.Machine.execTerm s
  | .fin => Sys2Proof.Machine.execFin s
  | .next => Sys2Proof.Machine.execNext s
  | .start => Sys2Proof.Machine.execStart s
  | .drain => Sys2Proof.Machine.execDrain s
  | .push b => Sys2Proof.Machine.execPush b s
  | .endRun => Sys2Proof.Machine.execEnd s

end Sys2Proof.Machine
end

