-- ==== Sys2Proof/Machine/Step.lean ====
section
/-! DEFINITION. One step: the block takes the host's next input (10_state.md R31, R39). A legal word runs its command, an illegal word
raises `IllegalCommand` (R70, R122), RST resets (70 R139); the index moves past the input first. With nothing presented the block
waits and keeps all its state (60_exceptions.md R138; log entry 7). -/

namespace Sys2Proof.Machine

/-- One command word presented to the block (R70): decoded, then executed. -/
def stepWord (w : CmdWord) (s : State) : Host.Outcome State Fault Refusal :=
  match decode w with
  | .command i => exec i s
  | .illegal _ => .next (illegalCommand s)

def step (s : State) : Host.Outcome State Fault Refusal :=
  match fetch s with
  | none => .next s
  | some (.command w) => stepWord w (advance s)
  | some .rst => .next (applyReset (advance s))

/-- `s` with a table row's bits as the word the host presents next. Nothing but that element of the sequence changes. -/
def State.withFetchWord (s : State) (nbits w : Nat) : State :=
  { s with inputs := placeInput (.command (tableWord nbits w)) s.pos s.inputs }

end Sys2Proof.Machine
end

