-- ==== Sys2Proof/Safety.lean ====
section
/-! DEFINITION. The terms claims are stated in: the bit string a code or a byte stands for (20_memory.md R48, R49), the queue of live
bits (10_state.md R21, R23), the invariants (R20, R22, R25), the output format (30_encoding.md R64), and runs as sequences of commands
(42_run.md R101). -/

namespace Sys2Proof.Safety

open Sys2Proof.Machine

/-! ### Bit strings -/

/-- The `n` low bits of `v`, most significant first (R48). -/
def bitsMsbFirst (v : Word) (n : Nat) : List Bool :=
  (List.range n).map fun k => v.getLsbD (n - 1 - k)

/-- A byte from bit 7 down to bit 0 (R49). -/
def byteBits (b : Byte) : List Bool :=
  (List.range 8).map fun k => b.getLsbD (7 - k)

/-- A byte sequence read byte by byte, each from bit 7 down to bit 0 (R49). -/
def streamBits (bs : List Byte) : List Bool :=
  bs.flatMap byteBits

/-- Zero bits up to the next byte boundary: `(8 - |S| mod 8) mod 8` of them (R64, R52). -/
def zeroPadded (bits : List Bool) : List Bool :=
  bits ++ List.replicate ((8 - bits.length % 8) % 8) false

/-! ### The queue -/

/-- The abstract queue `Q = ACC[FILL-1], ..., ACC[0]`, oldest bit first (R23). -/
def liveBits (s : State) : List Bool :=
  bitsMsbFirst s.acc s.fill.toNat

/-- The dead bits `ACC[31:FILL]` are zero (R22). -/
abbrev DeadZero (s : State) : Prop :=
  s.acc.toNat < 2 ^ s.fill.toNat

/-- Two states that differ at most in dead bits (R35). -/
abbrev SameUpToDead (s t : State) : Prop :=
  s.acc &&& mask s.fill.toNat = t.acc &&& mask s.fill.toNat ∧ t = { s with acc := t.acc }

/-- The bytes a drain moves out, oldest first: the `k`-th is `ACC[FILL-8k-1 : FILL-8k-8]` (R104, R84). -/
def drainedBytes (acc : Word) (fill : Nat) : List Byte :=
  (List.range (fill / 8)).map fun k => (acc >>> (fill - 8 * (k + 1))).setWidth 8

/-- ACC after a drain: unchanged when nothing was extracted, else its low `FILL mod 8` bits (R104, R84). -/
def accDrained (acc : Word) (fill : Nat) : Word :=
  if fill < 8 then acc else acc &&& mask (fill % 8)

/-- `s` after a drain, before the response (R104). -/
def drained (s : State) : State :=
  { s with
    acc := accDrained s.acc s.fill.toNat
    fill := BitVec.ofNat 6 (s.fill.toNat % 8)
    out := s.out ++ drainedBytes s.acc s.fill.toNat }

/-- `s` after a write that does not overflow, before the response (R82). -/
def written (v : Word) (n : Len) (s : State) : State :=
  { s with acc := (s.acc <<< n.toNat) ||| v, fill := BitVec.ofNat 6 (s.fill.toNat + n.toNat) }

/-- A write of `n` bits succeeds: `n <= 31` and `FILL + n <= 32` (R82). -/
abbrev Fits (n : Len) (s : State) : Prop :=
  n.toNat < 32 ∧ s.fill.toNat + n.toNat ≤ 32

/-- `s` after its marker, if one is configured, has been written (R93). -/
def markerWritten (s : State) : State :=
  if s.tmPresent then written s.tmCode s.tmLen s else s

/-- The marker, if one is configured, can be written (R93). -/
abbrev MarkerFits (s : State) : Prop :=
  s.tmPresent = true → Fits s.tmLen s

/-- `s` after padding to the next byte boundary (R94): `(8 - FILL mod 8) mod 8` zero bits. -/
def padded (s : State) : State :=
  { s with
    acc := s.acc <<< ((8 - s.fill.toNat % 8) % 8)
    fill := BitVec.ofNat 6 (s.fill.toNat + (8 - s.fill.toNat % 8) % 8) }

/-- `s` after `AccumulatorOverflow` or `IllegalCommand`: the three writes of fault entry and nothing else (R124). -/
def faulted (c : BitVec 2) (s : State) : State :=
  { s with fault := true, cause := c, resps := s.resps ++ [⟨1, true, c.setWidth 8⟩] }

/-- `s` with one response returned (R72). -/
def answered (st : BitVec 2) (valid : Bool) (data : Byte) (s : State) : State :=
  { s with resps := s.resps ++ [⟨st, valid, data⟩] }

/-- The command's write raises `AccumulatorOverflow` (R120): on the operand of WRITE, the entry of ENC and PUSH, the configured marker
of TERM and END; no other command raises. -/
def raisesOverflow (s : State) : Instr → Prop
  | .write _ n => 32 ≤ n.toNat ∨ 32 < s.fill.toNat + n.toNat
  | .enc b | .push b => 32 ≤ (tblRead s b).len.toNat ∨ 32 < s.fill.toNat + (tblRead s b).len.toNat
  | .term | .endRun => s.tmPresent = true ∧ (32 ≤ s.tmLen.toNat ∨ 32 < s.fill.toNat + s.tmLen.toNat)
  | .readb | .boff | .fin | .next | .start | .drain => False

/-- The code a command writes, if any, is well formed: WRITE's operand, the table entry, the configured marker (R22, R145). -/
def writesWellFormed (s : State) : Instr → Bool
  | .write v n => wellFormedCode v n
  | .enc b | .push b => (tblRead s b).wellFormed
  | .term | .endRun => wellFormedMarker s.tmPresent s.tmCode s.tmLen
  | .readb | .boff | .fin | .next | .start | .drain => true

/-- The bits a WRITE appends to the queue, most significant first; nothing for the other commands (R89). -/
def writtenBits : Instr → List Bool
  | .write v n => bitsMsbFirst v n.toNat
  | .readb | .boff | .enc _ | .term | .fin | .next | .start | .drain | .push _ | .endRun => []

/-- The response of a command that completes (R73); `appended` is the number of bytes it appended to OUT. -/
def okResponse (s : State) (appended : Nat) : Instr → Resp
  | .readb | .next =>
    if s.fill.toNat < 8 then ⟨0, false, 0⟩ else ⟨0, true, (s.acc >>> (s.fill.toNat - 8)).setWidth 8⟩
  | .boff => ⟨0, true, BitVec.ofNat 8 (s.fill.toNat % 8)⟩
  | .drain | .push _ | .endRun => ⟨0, true, BitVec.ofNat 8 appended⟩
  | .write _ _ | .enc _ | .term | .fin | .start => ⟨0, false, 0⟩

/-- The commands that append to OUT (R45). -/
def appends : Instr → Bool
  | .drain | .push _ | .endRun => true
  | .write _ _ | .readb | .boff | .enc _ | .term | .fin | .next | .start => false

/-! ### Invariants -/

/-- What a response can be (R72, R73): `ST` is not 3, without a result `DATA` is 0, and a fault is reported with its cause. -/
abbrev RespLegal (r : Resp) : Prop :=
  r.st ≠ 3 ∧ (r.valid = false → r.data = 0) ∧
    (r.st ≠ 0 → r.valid = true ∧ (r.data = 1 ∨ r.data = 2))

/-- The invariant of every reachable state: FILL at most 32 (R20), FAULT exactly when CAUSE is not 0 (R25), CAUSE never 3 (R123),
legal responses (R72, R73), the index inside the host's sequence or at its end (R31). -/
structure Inv (s : State) : Prop where
  fill_le : s.fill.toNat ≤ 32
  fault_iff : s.fault = true ↔ s.cause ≠ 0
  cause_ne : s.cause ≠ 3
  resps_legal : ∀ r ∈ s.resps, RespLegal r
  pos_le : s.pos ≤ s.inputs.length

/-- What the host has been asked to present carries no malformed code (R145). -/
def inputWellFormed : HostInput → Bool
  | .rst => true
  | .command w =>
    match decode w with
    | .command i => i.wellFormedOperand
    | .illegal _ => true

/-- The host's duty to keep codes well formed, for table, marker and every WRITE it presents (R27, R28, R145). -/
structure CodesWellFormed (s : State) : Prop where
  table : wellFormedTable s.tbl = true
  marker : wellFormedMarker s.tmPresent s.tmCode s.tmLen = true
  inputs : ∀ x ∈ s.inputs, inputWellFormed x = true

/-! ### Runs -/

/-- Commands executed one after another (R31). -/
def execAll : List Instr → State → Host.Outcome State Fault Refusal
  | [], s => .next s
  | i :: is, s =>
    match exec i s with
    | .next t => execAll is t
    | .fault r => .fault r
    | .refused r => .refused r

/-- `k` steps, one input of the host each (R31). -/
def stepTimes : Nat → State → Host.Outcome State Fault Refusal
  | 0, s => .next s
  | k + 1, s =>
    match step s with
    | .next t => stepTimes k t
    | .fault r => .fault r
    | .refused r => .refused r

/-- The same run with the finer commands: START, then ENC and DRAIN for each byte, then TERM, FIN, DRAIN (R101). -/
def finerCommands (bs : List Byte) : List Instr :=
  .start :: (bs.flatMap (fun b => [.enc b, .drain]) ++ [.term, .fin, .drain])

/-- The number of bits the input bytes contribute (R112). -/
def dataLength (s : State) (bs : List Byte) : Nat :=
  (bs.map fun b => (tblRead s b).len.toNat).sum

/-- The number of bits the marker contributes (R112). -/
def markerLength (s : State) : Nat :=
  if s.tmPresent then s.tmLen.toNat else 0

/-- Two states with the same table and marker (R109). -/
abbrev SameConfiguration (s t : State) : Prop :=
  t.tbl = s.tbl ∧ t.tmPresent = s.tmPresent ∧ t.tmCode = s.tmCode ∧ t.tmLen = s.tmLen

/-- The block's own state (R39) is the same: ACC, FILL, FAULT, CAUSE. -/
abbrev SameBlock (s t : State) : Prop :=
  t.acc = s.acc ∧ t.fill = s.fill ∧ t.fault = s.fault ∧ t.cause = s.cause

/-- The bits of the input bytes: each byte's code, most significant bit first, in input order (R64). -/
def dataBits (s : State) (bs : List Byte) : List Bool :=
  bs.flatMap fun b => bitsMsbFirst (tblRead s b).code (tblRead s b).len.toNat

/-- The bits of the marker, none when no marker is configured (R64). -/
def markerBits (s : State) : List Bool :=
  if s.tmPresent then bitsMsbFirst s.tmCode s.tmLen.toNat else []

/-- The launch premises of a claim about a run over `bs` (R153): FAULT is 0, every entry read and the marker are well formed. -/
structure RunPremises (s : State) (bs : List Byte) : Prop where
  alive : s.fault = false
  entries : ∀ b ∈ bs, (tblRead s b).wellFormed = true
  marker : wellFormedMarker s.tmPresent s.tmCode s.tmLen = true

/-- Every length a run over `bs` can write is within the safe bound (R113). -/
structure SafeLengths (s : State) (bs : List Byte) : Prop where
  entries : ∀ b ∈ bs, (tblRead s b).len.toNat ≤ Config.safeLen
  marker : s.tmPresent = true → s.tmLen.toNat ≤ Config.safeLen

/-- A safe run: it did not end in a fault (R117, R125, R130). -/
abbrev Succeeded (s t : State) (bs : List Byte) : Prop :=
  execAll (compress bs) s = .next t ∧ t.fault = false

end Sys2Proof.Safety
end

