-- ==== Sys2Proof/Certificates/Slice0/Obligations.lean ====
section
/-! DEFINITION. The statements for the provers. Each docstring names the rules of spec/ it formalises. `s` is any state, reachable or
not; where a statement could fail only in states no run reaches, `s.fill.toNat ≤ 32` or `Inv s` is a premise, and
`StepKeepsInvariant` with `ResetMeetsInvariant` states that runs never leave it. -/

open Sys2Proof Sys2Proof.Machine Sys2Proof.Safety

/-! ### Command words -/

/-- R75: the eleven example words, written out from the spec, decode to the commands they stand for. -/
def Obligations.SpecWordsDecode : Prop :=
  decode 0x10040000000A = .command (.write 0b1010 4) ∧ decode 0x110000000000 = .command .readb ∧
  decode 0x120000000000 = .command .boff ∧ decode 0x2000000000E4 = .command (.enc 0xE4) ∧
  decode 0x210000000000 = .command .term ∧ decode 0x220000000000 = .command .fin ∧
  decode 0x230000000000 = .command .next ∧ decode 0x300000000000 = .command .start ∧
  decode 0x310000000000 = .command .drain ∧ decode 0x3200000000DB = .command (.push 0xDB) ∧
  decode 0x330000000000 = .command .endRun

/-- R66 to R69: decoding the word of a command gives the command back, with every operand at every value. -/
def Obligations.DecodeEncodeRoundTrip : Prop :=
  ∀ i : Instr, decode (encode i) = .command i

/-- R70: a word that decodes to a command is that command's word, so each command has exactly one word. -/
def Obligations.DecodedWordIsEncoding : Prop :=
  ∀ (w : CmdWord) (i : Instr), decode w = .command i → encode i = w

/-- R75: the numeric formulas of the encodings. -/
def Obligations.EncodingFormulas : Prop :=
  (∀ (v : Word) (n : Len), (encode (.write v n)).toNat = 0x10 * 2 ^ 40 + n.toNat * 2 ^ 32 + v.toNat) ∧
  (∀ b : Byte, (encode (.enc b)).toNat = 0x20 * 2 ^ 40 + b.toNat) ∧
  (∀ b : Byte, (encode (.push b)).toNat = 0x32 * 2 ^ 40 + b.toNat)

/-- R70: a row of the opcode map selects a word exactly when the word decodes to that row's command, the rows are disjoint, the
operands are the fields of R68, and a word no row selects is illegal. -/
def Obligations.OpcodeMapDecides : Prop :=
  (∀ r ∈ opcodeMap, ∀ w : CmdWord,
    r.selects w = true ↔ ∃ i, decode w = .command i ∧ i.mnemonic = r.mnemonic) ∧
  (∀ r ∈ opcodeMap, ∀ r' ∈ opcodeMap, ∀ w : CmdWord,
    r.selects w = true → r'.selects w = true → r = r') ∧
  (∀ (w : CmdWord) (v : Word) (n : Len),
    decode w = .command (.write v n) → v = w.extractLsb' 0 32 ∧ n = w.extractLsb' 32 6) ∧
  (∀ (w : CmdWord) (b : Byte),
    decode w = .command (.enc b) ∨ decode w = .command (.push b) → b = w.extractLsb' 0 8) ∧
  (∀ w : CmdWord, (∃ why, decode w = .illegal why) ↔ legalWord w = false)

/-- R71: which words are illegal, what an illegal word does, and that WRITE has no illegal operand: a length of 32 or more faults at
execution. -/
def Obligations.IllegalEncodings : Prop :=
  (∀ w : CmdWord, (∃ why, decode w = .illegal why) ↔
    opField w ∉ ([0x10, 0x11, 0x12, 0x20, 0x21, 0x22, 0x23, 0x30, 0x31, 0x32, 0x33] : List (BitVec 8)) ∨
    rsvField w ≠ 0 ∨
    (opField w ≠ 0x10 ∧ nField w ≠ 0) ∨
    ((opField w = 0x20 ∨ opField w = 0x32) ∧ vHighField w ≠ 0) ∨
    (opField w ≠ 0x10 ∧ opField w ≠ 0x20 ∧ opField w ≠ 0x32 ∧ vField w ≠ 0)) ∧
  (∀ (w : CmdWord) (why : IllegalReason) (s : State), s.fault = false → decode w = .illegal why →
    stepWord w s = .next (faulted 2 s)) ∧
  (∀ w : CmdWord, opField w = 0x10 → rsvField w = 0 →
    decode w = .command (.write (vField w) (nField w))) ∧
  (∀ (v : Word) (n : Len) (s : State), s.fault = false → 32 ≤ n.toNat →
    exec (.write v n) s = .next (faulted 1 s))

/-! ### Every command -/

/-- R81: the two tests every command begins with. -/
def Obligations.TwoTestsComeFirst : Prop :=
  ∀ (w : CmdWord) (s : State),
    (s.fault = true → stepWord w s = .next (answered 2 true (s.cause.setWidth 8) s)) ∧
    (s.fault = false → legalWord w = false → stepWord w s = .next (faulted 2 s)) ∧
    (s.fault = false → legalWord w = true →
      ∃ i, decode w = .command i ∧ stepWord w s = exec i s ∧
        ∀ t, exec i s = .next t → t.fault = false →
          t.resps = s.resps ++ [okResponse s (t.out.length - s.out.length) i])

/-- R125: while FAULT is 1 every word, legal or not, is ignored with ST = 2, CAUSE keeps the first code, and no run ends there. -/
def Obligations.FaultedBlockIgnoresEveryWord : Prop :=
  ∀ s : State, s.fault = true →
    (∀ w : CmdWord, stepWord w s = .next { s with resps := s.resps ++ [⟨2, true, s.cause.setWidth 8⟩] }) ∧
    (∀ (bs : List Byte) (t : State), ¬ Succeeded s t bs)

/-- R124: a command that raises makes the three writes of fault entry and has no other effect. -/
def Obligations.FaultEntryIsPrecise : Prop :=
  ∀ (w : CmdWord) (s t : State), s.fault = false → stepWord w s = .next t → t.fault = true →
    ∃ c : BitVec 2, (c = 1 ∨ c = 2) ∧
      t = { s with fault := true, cause := c, resps := s.resps ++ [⟨1, true, c.setWidth 8⟩] }

/-- R127: at most one fault for a command, in the order FAULT, illegal word, the command's own rule, whose only fault is
`AccumulatorOverflow`. -/
def Obligations.FaultPriority : Prop :=
  ∀ (w : CmdWord) (s t : State), stepWord w s = .next t →
    (s.fault = true → t.fault = true ∧ t.cause = s.cause) ∧
    (s.fault = false → legalWord w = false → t.fault = true ∧ t.cause = 2) ∧
    (s.fault = false → legalWord w = true → t.fault = true → t.cause = 1)

/-- R120: exactly when a command raises `AccumulatorOverflow`, and what is then recorded. -/
def Obligations.OverflowExactly : Prop :=
  ∀ (i : Instr) (s t : State), s.fault = false → s.fill.toNat ≤ 32 → exec i s = .next t →
    ((t.fault = true ↔ raisesOverflow s i) ∧ (t.fault = true → t = faulted 1 s))

/-- R72: every command returns exactly one response, laid out as ST, VALID, DATA. -/
def Obligations.OneResponsePerCommand : Prop :=
  ∀ (w : CmdWord) (s : State), ∃ (t : State) (r : Resp),
    stepWord w s = .next t ∧ t.resps = s.resps ++ [r] ∧
    r.st = (if s.fault then 2 else if t.fault then 1 else 0) ∧
    (r.valid = false → r.data = 0) ∧
    (respWord r).extractLsb' 9 2 = r.st ∧ (respWord r).getLsbD 8 = r.valid ∧
    (respWord r).extractLsb' 0 8 = r.data

/-- R73: the response of every command in every status; the count of bytes is 0 to 4. -/
def Obligations.ResponseContents : Prop :=
  ∀ (i : Instr) (s t : State), s.fill.toNat ≤ 32 → exec i s = .next t →
    (s.fault = false → t.fault = false →
      t.resps = s.resps ++ [okResponse s (t.out.length - s.out.length) i] ∧
      t.out.length - s.out.length ≤ Config.drainMax) ∧
    (s.fault = false → t.fault = true → t.cause = 1 ∧ t.resps = s.resps ++ [⟨1, true, 1⟩]) ∧
    (s.fault = true → t.resps = s.resps ++ [⟨2, true, s.cause.setWidth 8⟩]) ∧
    (s.fault = false → ∀ (w : CmdWord) (u : State), legalWord w = false → stepWord w s = .next u →
      u.cause = 2 ∧ u.resps = s.resps ++ [⟨1, true, 2⟩])

/-- R42, R30, R31, R45, R103: what commands leave unchanged. No command writes the configuration, the host's sequence or its index;
only DRAIN, PUSH and END append to OUT; BOFF changes neither ACC nor FILL; READB, BOFF, FIN, NEXT, START and DRAIN never change
FAULT or CAUSE, and no command changes CAUSE without raising FAULT. -/
def Obligations.CommandFrames : Prop :=
  ∀ (i : Instr) (s t : State), exec i s = .next t →
    SameConfiguration s t ∧ t.inputs = s.inputs ∧ t.pos = s.pos ∧
    (appends i = false → t.out = s.out) ∧
    (i = .boff → t.acc = s.acc ∧ t.fill = s.fill) ∧
    (i = .readb ∨ i = .boff ∨ i = .next ∨ i = .start ∨ i = .drain → t.fault = s.fault ∧ t.cause = s.cause) ∧
    (i = .fin → s.fill.toNat ≤ 32 → t.fault = s.fault ∧ t.cause = s.cause) ∧
    (t.cause ≠ s.cause → s.fault = false ∧ t.fault = true)

/-! ### The accumulator commands -/

/-- R82: WRITE shifts, ORs and counts, or raises and changes neither ACC nor FILL. -/
def Obligations.WriteShiftsAndOrs : Prop :=
  ∀ (v : Word) (n : Len) (s : State),
    decode (0x10#8 ++ 0#2 ++ n ++ v) = .command (.write v n) ∧
    (s.fault = false → n.toNat < 32 → s.fill.toNat + n.toNat ≤ 32 →
      exec (.write v n) s = .next
        { s with
          acc := (s.acc <<< n.toNat) ||| v
          fill := BitVec.ofNat 6 (s.fill.toNat + n.toNat)
          resps := s.resps ++ [⟨0, false, 0⟩] }) ∧
    (s.fault = false → 32 ≤ n.toNat ∨ 32 < s.fill.toNat + n.toNat →
      exec (.write v n) s = .next
        { s with fault := true, cause := 1, resps := s.resps ++ [⟨1, true, 1⟩] })

/-- R83: bit by bit, where the operand lands, malformed or not: below `n` only `v`, at or above `n` the older bits with `v` ORed on. -/
def Obligations.WriteBitByBit : Prop :=
  ∀ (v : Word) (n : Len) (s t : State), s.fault = false → Fits n s → exec (.write v n) s = .next t →
    ∀ k, k < 32 →
      t.acc.getLsbD k = if k < n.toNat then v.getLsbD k else s.acc.getLsbD (k - n.toNat) || v.getLsbD k

/-- R84: READB returns the oldest 8 bits and keeps the rest, or returns nothing and changes nothing. -/
def Obligations.ReadbTakesOldestByte : Prop :=
  decode 0x110000000000 = .command .readb ∧
  ∀ s : State, s.fault = false →
    (s.fill.toNat < 8 → exec .readb s = .next { s with resps := s.resps ++ [⟨0, false, 0⟩] }) ∧
    (8 ≤ s.fill.toNat → exec .readb s = .next
      { s with
        acc := s.acc &&& mask (s.fill.toNat - 8)
        fill := BitVec.ofNat 6 (s.fill.toNat - 8)
        resps := s.resps ++ [⟨0, true, (s.acc >>> (s.fill.toNat - 8)).setWidth 8⟩] })

/-- R86: BOFF returns `FILL mod 8` and changes nothing else. -/
def Obligations.BoffReturnsOffset : Prop :=
  decode 0x120000000000 = .command .boff ∧
  ∀ s : State, s.fault = false →
    exec .boff s = .next { s with resps := s.resps ++ [⟨0, true, BitVec.ofNat 8 (s.fill.toNat % 8)⟩] }

/-- R88: what the accumulator commands do to the abstract queue. -/
def Obligations.AccumulatorCommandsActOnQueue : Prop :=
  ∀ s : State, s.fault = false → s.fill.toNat ≤ 32 →
    (∀ (v : Word) (n : Len), wellFormedCode v n = true → Fits n s →
      ∃ t, exec (.write v n) s = .next t ∧ liveBits t = liveBits s ++ bitsMsbFirst v n.toNat ∧
        t.fill.toNat ≤ 32 ∧ (DeadZero s → DeadZero t)) ∧
    (∀ (v : Word) (n : Len), ¬ Fits n s →
      ∃ t, exec (.write v n) s = .next t ∧ liveBits t = liveBits s ∧ t.fill.toNat ≤ 32 ∧ (DeadZero s → DeadZero t)) ∧
    (8 ≤ (liveBits s).length →
      ∃ (t : State) (b : Byte), exec .readb s = .next t ∧ t.resps = s.resps ++ [⟨0, true, b⟩] ∧
        liveBits s = byteBits b ++ liveBits t ∧ t.fill.toNat ≤ 32 ∧ DeadZero t) ∧
    ((liveBits s).length < 8 →
      ∃ t, exec .readb s = .next t ∧ liveBits t = liveBits s ∧ t.fill.toNat ≤ 32 ∧ (DeadZero s → DeadZero t)) ∧
    (∃ t, exec .boff s = .next t ∧ liveBits t = liveBits s ∧ t.fill.toNat ≤ 32 ∧ (DeadZero s → DeadZero t))

/-- R89: first in, first out. However reads are interleaved with well-formed writes, the bytes returned followed by the bits still
queued are the bits queued before followed by the bits written. -/
def Obligations.QueueIsFirstInFirstOut : Prop :=
  ∀ (is : List Instr) (s t : State), s.fault = false → s.fill.toNat ≤ 32 →
    (∀ i ∈ is, i = .readb ∨ ∃ v n, i = .write v n ∧ wellFormedCode v n = true) →
    execAll is s = .next t → t.fault = false →
    ∃ answers : List Resp, t.resps = s.resps ++ answers ∧
      liveBits s ++ is.flatMap writtenBits =
        streamBits ((answers.filter (·.valid)).map (·.data)) ++ liveBits t

/-! ### The encoder commands -/

/-- R92: ENC writes the table entry of its byte, or raises; it does not drain. -/
def Obligations.EncWritesTableEntry : Prop :=
  (∀ b : Byte, decode (0x20#8 ++ 0#32 ++ b) = .command (.enc b)) ∧
  ∀ (b : Byte) (s : State), s.fault = false →
    (Fits (tblRead s b).len s →
      exec (.enc b) s = .next (answered 0 false 0 (written (tblRead s b).code (tblRead s b).len s))) ∧
    (¬ Fits (tblRead s b).len s → exec (.enc b) s = .next (faulted 1 s)) ∧
    (tblRead s b = ⟨0, 0⟩ → s.fill.toNat ≤ 32 → exec (.enc b) s = .next (answered 0 false 0 s))

/-- R93: TERM writes the configured marker, or raises; with no marker configured it does nothing. -/
def Obligations.TermWritesMarker : Prop :=
  decode 0x210000000000 = .command .term ∧
  ∀ s : State, s.fault = false →
    (s.tmPresent = false → exec .term s = .next (answered 0 false 0 s)) ∧
    (s.tmPresent = true → Fits s.tmLen s →
      exec .term s = .next (answered 0 false 0 (written s.tmCode s.tmLen s))) ∧
    (s.tmPresent = true → ¬ Fits s.tmLen s → exec .term s = .next (faulted 1 s))

/-- R94, R95: FIN pads with zero bits to the next multiple of 8 and never raises. -/
def Obligations.FinPadsToByteBoundary : Prop :=
  decode 0x220000000000 = .command .fin ∧
  ∀ s : State, s.fault = false → s.fill.toNat ≤ 32 →
    ∃ t, exec .fin s = .next t ∧ t = answered 0 false 0 (padded s) ∧
      t.fault = false ∧ t.fill.toNat = 8 * ((s.fill.toNat + 7) / 8) ∧
      (s.fill.toNat % 8 = 0 → t = answered 0 false 0 s) ∧
      liveBits t = zeroPadded (liveBits s)

/-- R96: NEXT is READB under another opcode. -/
def Obligations.NextReadsAsReadb : Prop :=
  decode 0x230000000000 = .command .next ∧
  ∀ s : State, exec .next s = exec .readb s ∧
    (s.fault = false → s.fill.toNat < 8 →
      exec .next s = .next { s with resps := s.resps ++ [⟨0, false, 0⟩] }) ∧
    (s.fault = false → 8 ≤ s.fill.toNat → exec .next s = .next
      { s with
        acc := s.acc &&& mask (s.fill.toNat - 8)
        fill := BitVec.ofNat 6 (s.fill.toNat - 8)
        resps := s.resps ++ [⟨0, true, (s.acc >>> (s.fill.toNat - 8)).setWidth 8⟩] })

/-! ### The run commands -/

/-- R102, R103: START empties the accumulator and touches nothing else; a faulted block stays faulted. -/
def Obligations.StartEmptiesAccumulator : Prop :=
  decode 0x300000000000 = .command .start ∧
  ∀ s : State,
    (s.fault = false → exec .start s = .next { s with acc := 0, fill := 0, resps := s.resps ++ [⟨0, false, 0⟩] }) ∧
    (s.fault = true → exec .start s = .next (answered 2 true (s.cause.setWidth 8) s))

/-- R104: DRAIN moves every complete byte to OUT, oldest first, and leaves `FILL mod 8` bits. -/
def Obligations.DrainMovesCompleteBytes : Prop :=
  decode 0x310000000000 = .command .drain ∧
  ∀ s : State, s.fault = false →
    exec .drain s = .next
      { s with
        acc := if s.fill.toNat < 8 then s.acc else s.acc &&& mask (s.fill.toNat % 8)
        fill := BitVec.ofNat 6 (s.fill.toNat % 8)
        out := s.out ++ (List.range (s.fill.toNat / 8)).map fun k =>
          (s.acc >>> (s.fill.toNat - 8 * (k + 1))).setWidth 8
        resps := s.resps ++ [⟨0, true, BitVec.ofNat 8 (s.fill.toNat / 8)⟩] }

/-- R105: PUSH is ENC then DRAIN in one command; where ENC raises nothing is appended. -/
def Obligations.PushEncodesThenDrains : Prop :=
  (∀ b : Byte, decode (0x32#8 ++ 0#32 ++ b) = .command (.push b)) ∧
  ∀ (b : Byte) (s : State), s.fault = false →
    (Fits (tblRead s b).len s →
      exec (.push b) s = .next
        (answered 0 true (BitVec.ofNat 8 ((s.fill.toNat + (tblRead s b).len.toNat) / 8))
          (drained (written (tblRead s b).code (tblRead s b).len s)))) ∧
    (¬ Fits (tblRead s b).len s → exec (.push b) s = .next (faulted 1 s))

/-- R106: END is TERM, FIN and DRAIN in one command; where TERM raises nothing is appended. -/
def Obligations.EndMarksPadsAndDrains : Prop :=
  decode 0x330000000000 = .command .endRun ∧
  ∀ s : State, s.fault = false → s.fill.toNat ≤ 32 →
    (MarkerFits s →
      exec .endRun s = .next
        (answered 0 true (BitVec.ofNat 8 (((markerWritten s).fill.toNat + 7) / 8))
          (drained (padded (markerWritten s))))) ∧
    (¬ MarkerFits s → exec .endRun s = .next (faulted 1 s))

/-- R107: after an END that does not fault FILL is 0, and ACC is 0 where the dead bits were zero or a byte was appended. -/
def Obligations.EndLeavesEmptyAccumulator : Prop :=
  ∀ s t : State, s.fault = false → s.fill.toNat ≤ 32 → exec .endRun s = .next t → t.fault = false →
    t.fill = 0 ∧
    (DeadZero s → wellFormedMarker s.tmPresent s.tmCode s.tmLen = true → t.acc = 0) ∧
    (t.out ≠ s.out → t.acc = 0)

/-- R114: FILL is at most 7 after START, DRAIN, PUSH and END, 0 after START and END, and in a run it is the number of bits written
`mod 8`. -/
def Obligations.FillBetweenCommands : Prop :=
  (∀ (i : Instr) (s t : State), s.fault = false → s.fill.toNat ≤ 32 → exec i s = .next t → t.fault = false →
    (appends i = true ∨ i = .start → t.fill.toNat ≤ 7) ∧ (i = .start ∨ i = .endRun → t.fill = 0)) ∧
  (∀ (bs : List Byte) (s t : State), s.fault = false →
    execAll (.start :: bs.map .push) s = .next t → t.fault = false →
    t.fill.toNat = dataLength s bs % 8)

/-! ### Runs -/

/-- R111, R64: the output equation. The bytes a run appends, read bit by bit, are the codes in input order, the marker, and zero
padding to the next byte boundary. -/
def Obligations.RunOutputIsPackedStream : Prop :=
  ∀ (bs : List Byte) (s t : State), RunPremises s bs → Succeeded s t bs →
    ∃ bytes : List Byte, t.out = s.out ++ bytes ∧
      streamBits bytes = zeroPadded (dataBits s bs ++ markerBits s)

/-- R112: the number of bytes a run appends, and the zero bits after the last written bit. -/
def Obligations.RunOutputLength : Prop :=
  ∀ (bs : List Byte) (s t : State), s.fault = false → Succeeded s t bs →
    ∃ bytes : List Byte, t.out = s.out ++ bytes ∧
      bytes.length = (dataLength s bs + markerLength s + 7) / 8 ∧
      (RunPremises s bs →
        (streamBits bytes).drop (dataLength s bs + markerLength s) =
          List.replicate ((8 - (dataLength s bs + markerLength s) % 8) % 8) false)

/-- R113: with every length at most 25 a run never overflows, whatever the input. -/
def Obligations.SafeLengthsNeverOverflow : Prop :=
  (∀ (bs : List Byte) (s : State), s.fault = false → SafeLengths s bs → ∃ t, Succeeded s t bs) ∧
  (∀ (bs : List Byte) (b : Byte) (s t u : State), s.fault = false →
    execAll (.start :: bs.map .push) s = .next t → t.fault = false → exec (.push b) t = .next u →
    (u.fault = false ↔
      (tblRead s b).len.toNat < 32 ∧ dataLength s bs % 8 + (tblRead s b).len.toNat ≤ 32))

/-- R117: after a run that did not fault the block is empty and alive and its last response is OK. -/
def Obligations.RunEndsEmpty : Prop :=
  ∀ (bs : List Byte) (s t : State), RunPremises s bs → Succeeded s t bs →
    t.acc = 0 ∧ t.fill = 0 ∧ t.fault = false ∧ ∃ d : Byte, t.resps.getLast? = some ⟨0, true, d⟩

/-- R109: a run is a pure function of table, marker and input: nothing of the state before its START can be told from its output. -/
def Obligations.RunIsPureFunction : Prop :=
  ∀ (bs : List Byte) (s t s' t' : State), s.fault = false → s'.fault = false → SameConfiguration s s' →
    execAll (compress bs) s = .next t → execAll (compress bs) s' = .next t' →
    ∃ (bytes : List Byte) (answers : List Resp),
      t.out = s.out ++ bytes ∧ t'.out = s'.out ++ bytes ∧
      t.resps = s.resps ++ answers ∧ t'.resps = s'.resps ++ answers ∧
      t'.acc = t.acc ∧ t'.fill = t.fill ∧ t'.fault = t.fault

/-- R101: the finer commands leave the same accumulator, fault state and output as PUSH and END, faults included. -/
def Obligations.FinerCommandsGiveSameRun : Prop :=
  ∀ (bs : List Byte) (s t u : State),
    execAll (compress bs) s = .next t → execAll (finerCommands bs) s = .next u →
    u = { t with resps := u.resps }

/-- R76: NEXT repeated until it returns nothing delivers the bytes a DRAIN in the same state would append, in the same order. -/
def Obligations.NextAllDeliversDrainedBytes : Prop :=
  ∀ s : State, s.fault = false → s.fill.toNat ≤ 32 →
    ∃ (k : Nat) (bytes : List Byte) (t u : State), 1 ≤ k ∧ k ≤ 5 ∧
      execAll (List.replicate k .next) s = .next t ∧ exec .drain s = .next u ∧
      u.out = s.out ++ bytes ∧ t.out = s.out ∧
      t.resps = s.resps ++ bytes.map (fun b => ⟨0, true, b⟩) ++ [⟨0, false, 0⟩] ∧
      SameBlock t u

/-- R128: a run over the empty input with no marker appends nothing and raises nothing. -/
def Obligations.EmptyRunAppendsNothing : Prop :=
  ∀ s : State, s.fault = false → s.tmPresent = false →
    ∃ t, Succeeded s t [] ∧ t.out = s.out

/-! ### Steps, reset, invariants -/

/-- R38, R139, R140: ACC, FILL, FAULT and CAUSE right after reset and after the signal RST in every state, and that RST touches neither
table, marker nor OUT. Two parts of the RST clause are the model's choice, no rule of the spec: that the index moves past the RST (log
entry 6; R31 speaks of commands only), and that the responses already returned stay in State (log entry 5). -/
def Obligations.ResetClearsBlock : Prop :=
  (State.reset.acc = 0 ∧ State.reset.fill = 0 ∧ State.reset.fault = false ∧ State.reset.cause = 0) ∧
  (∀ s : State, fetch s = some .rst →
    step s = .next { s with acc := 0, fill := 0, fault := false, cause := 0, pos := s.pos + 1 })

/-- R70, R31: a step takes the next word of the host's sequence, moves the index past it and runs exactly the decoded command. -/
def Obligations.StepRunsDecodedCommand : Prop :=
  ∀ (s : State) (w : CmdWord) (i : Instr), fetch s = some (.command w) → decode w = .command i →
    step s = exec i { s with pos := s.pos + 1 }

/-- R31: the index advances by one at every command word, faulting and ignored commands included, and no command changes it otherwise.
Two parts are the model's choice, no rule of the spec: that the index also moves past an RST, in the first clause (log entry 6), and
that with nothing presented the step keeps the whole state, the second clause (log entry 7). -/
def Obligations.IndexAdvancesByOne : Prop :=
  ∀ s t : State, step s = .next t →
    (fetch s ≠ none → t.pos = s.pos + 1) ∧ (fetch s = none → t = s)

/-- R39: the step is a total function of the block's state, the configuration and the word, with 0 to 4 bytes and one response: the
second clause. The first clause also covers what R39 does not speak of: a state in which nothing is presented, where a next state is the
model's choice (log entry 7), and RST as an input of the sequence, the model's choice too (log entry 6). -/
def Obligations.StepIsTotalFunction : Prop :=
  (∀ s : State, ∃ t, step s = .next t) ∧
  (∀ (w : CmdWord) (s : State), s.fill.toNat ≤ 32 →
    ∃ (t : State) (bytes : List Byte) (r : Resp),
      stepWord w s = .next t ∧ t.out = s.out ++ bytes ∧ bytes.length ≤ 4 ∧ t.resps = s.resps ++ [r] ∧
      ∀ s' : State, SameBlock s s' → SameConfiguration s s' →
        ∃ t', stepWord w s' = .next t' ∧ SameBlock t t' ∧
          t'.out = s'.out ++ bytes ∧ t'.resps = s'.resps ++ [r])

/-- R31, R56, R108: presenting the words of a command list runs the commands in order. -/
def Obligations.PresentedWordsRunInOrder : Prop :=
  ∀ (is : List Instr) (s t : State),
    s.inputs.drop s.pos = is.map (fun i => HostInput.command (encode i)) →
    execAll is s = .next t →
    stepTimes is.length s = .next { t with pos := s.pos + is.length }

/-- R42, R46: no step writes the table, the marker or the host's sequence, and OUT only grows, by at most 4 bytes, and only at DRAIN,
PUSH and END. That a step with nothing presented changes nothing is the model's choice (log entry 7). -/
def Obligations.ConfigurationReadOnlyOutputAppendOnly : Prop :=
  ∀ s t : State, s.fill.toNat ≤ 32 → step s = .next t →
    SameConfiguration s t ∧ t.inputs = s.inputs ∧
    ∃ bytes : List Byte, t.out = s.out ++ bytes ∧ bytes.length ≤ 4 ∧
      (bytes ≠ [] → ∃ w i, fetch s = some (.command w) ∧ decode w = .command i ∧ appends i = true)

/-- R24, R25: FAULT is 0 after reset, is set by fault entry and nothing else, and, once set, is cleared by RST alone; CAUSE keeps its
value until then. -/
def Obligations.FaultIsStickyUntilReset : Prop :=
  State.reset.fault = false ∧
  ∀ s t : State, step s = .next t →
    (s.fault = true → fetch s ≠ some .rst →
      t.fault = true ∧ t.cause = s.cause ∧ t.acc = s.acc ∧ t.fill = s.fill ∧ t.out = s.out) ∧
    (fetch s = some .rst → t.fault = false ∧ t.cause = 0) ∧
    (s.fault = false → t.fault = true →
      ∃ c : BitVec 2, (c = 1 ∨ c = 2) ∧ t = faulted c { s with pos := s.pos + 1 })

/-- The state after reset meets every invariant (R20, R22, R25; the table, the marker and the empty sequences are the model's choice,
log entries 2 to 6). -/
def Obligations.ResetMeetsInvariant : Prop :=
  Inv State.reset ∧ DeadZero State.reset ∧ CodesWellFormed State.reset

/-- R20, R25, R72, R123: every step keeps FILL at most 32, FAULT exactly when CAUSE is not 0, CAUSE never 3, legal responses, and the
index inside the host's sequence. That State keeps the responses, that the index moves past an RST, and the step with nothing presented
are the model's choices (log entries 5, 6, 7). -/
def Obligations.StepKeepsInvariant : Prop :=
  ∀ s t : State, Inv s → step s = .next t → Inv t

/-- R22: START and RST leave every dead bit zero, and every command whose code is well formed keeps them zero. -/
def Obligations.DeadBitsStayZero : Prop :=
  (∀ s t : State, s.fault = false → exec .start s = .next t → DeadZero t) ∧
  (∀ s : State, DeadZero (applyReset s)) ∧
  (∀ (i : Instr) (s t : State), s.fill.toNat ≤ 32 → DeadZero s → writesWellFormed s i = true →
    exec i s = .next t → DeadZero t)

/-- R22, R145: with well-formed codes from the host, every step keeps the dead bits zero and the codes well formed; the step with
nothing presented is the model's choice (log entry 7). -/
def Obligations.StepKeepsDeadBitsZero : Prop :=
  ∀ s t : State, Inv s → CodesWellFormed s → DeadZero s → step s = .next t →
    CodesWellFormed t ∧ DeadZero t

/-- R35: dead bits are unobservable. Two states that differ in them at most give the same bytes and responses at every word, malformed
codes included, and still differ in dead bits at most. -/
def Obligations.DeadBitsUnobservable : Prop :=
  ∀ (w : CmdWord) (s s' t t' : State), s.fill.toNat ≤ 32 → SameUpToDead s s' →
    stepWord w s = .next t → stepWord w s' = .next t' →
    SameUpToDead t t' ∧ t'.out = t.out ∧ t'.resps = t.resps
end

