-- ==== Sys2Proof/Laws/Decode.lean ====
section
/-! SUPPORT. The fields of an assembled word, a word from its fields, and the fields within fields (30_encoding.md R66, R67). -/

namespace Sys2Proof

theorem getLsbD_assemble (op : BitVec 8) (n : Len) (v : Word) (i : Nat) :
    (assemble op n v).getLsbD i =
      if i < 32 then v.getLsbD i
      else if i < 38 then n.getLsbD (i - 32)
      else if i < 40 then false
      else op.getLsbD (i - 40) := by
  simp only [assemble, BitVec.getLsbD_append]
  by_cases h1 : i < 32
  · simp [h1]
  · by_cases h2 : i < 38
    · have : i - 32 < 6 := by omega
      simp [h1, h2, this]
    · by_cases h3 : i < 40
      · have h4 : ¬ i - 32 < 6 := by omega
        have h5 : i - 32 - 6 < 2 := by omega
        simp only [h1, h2, h3, h4, h5, if_true, if_false, BitVec.getLsbD_zero]
      · have h4 : ¬ i - 32 < 6 := by omega
        have h5 : ¬ i - 32 - 6 < 2 := by omega
        have h6 : i - 32 - 6 - 2 = i - 40 := by omega
        simp only [h1, h2, h3, h4, h5, h6, if_false]

@[simp] theorem opField_assemble (op : BitVec 8) (n : Len) (v : Word) : opField (assemble op n v) = op := by
  apply BitVec.eq_of_getLsbD_eq
  intro i hi
  have h1 : ¬ 40 + i < 32 := by omega
  have h2 : ¬ 40 + i < 38 := by omega
  have h3 : ¬ 40 + i < 40 := by omega
  have h4 : 40 + i - 40 = i := by omega
  simp only [opField, BitVec.getLsbD_extractLsb', getLsbD_assemble, hi, h1, h2, h3, h4, if_false, decide_true,
    Bool.true_and]

@[simp] theorem rsvField_assemble (op : BitVec 8) (n : Len) (v : Word) : rsvField (assemble op n v) = 0 := by
  apply BitVec.eq_of_getLsbD_eq
  intro i hi
  have h1 : ¬ 38 + i < 32 := by omega
  have h2 : ¬ 38 + i < 38 := by omega
  have h3 : 38 + i < 40 := by omega
  simp only [rsvField, BitVec.getLsbD_extractLsb', getLsbD_assemble, h1, h2, h3, if_true, if_false]
  simp

@[simp] theorem nField_assemble (op : BitVec 8) (n : Len) (v : Word) : nField (assemble op n v) = n := by
  apply BitVec.eq_of_getLsbD_eq
  intro i hi
  have h1 : ¬ 32 + i < 32 := by omega
  have h2 : 32 + i < 38 := by omega
  have h3 : 32 + i - 32 = i := by omega
  simp only [nField, BitVec.getLsbD_extractLsb', getLsbD_assemble, hi, h1, h2, h3, if_true, if_false, decide_true,
    Bool.true_and]

@[simp] theorem vField_assemble (op : BitVec 8) (n : Len) (v : Word) : vField (assemble op n v) = v := by
  apply BitVec.eq_of_getLsbD_eq
  intro i hi
  simp only [vField, BitVec.getLsbD_extractLsb', getLsbD_assemble, Nat.zero_add, hi, if_true, decide_true,
    Bool.true_and]

/-- The byte operand is the low byte of `V` (R66). -/
theorem byteField_eq (w : CmdWord) : byteField w = (vField w).setWidth 8 := by
  apply BitVec.eq_of_getLsbD_eq
  intro i hi
  have : i < 32 := by omega
  simp [byteField, vField, hi, this]

/-- `V[31:8]` is the rest of `V` (R67). -/
theorem vHighField_eq (w : CmdWord) : vHighField w = (vField w).extractLsb' 8 24 := by
  apply BitVec.eq_of_getLsbD_eq
  intro i hi
  simp [vHighField, vField, hi]

/-- A value is its low byte when its other bits are zero. -/
theorem setWidth_byte_of_high {v : Word} (h : v.extractLsb' 8 24 = 0) : (v.setWidth 8).setWidth 32 = v := by
  apply BitVec.eq_of_getLsbD_eq
  intro i hi
  by_cases hb : i < 8
  · simp [hb, hi]
  · have := congrArg (fun x => x.getLsbD (i - 8)) h
    have h1 : i - 8 < 24 := by omega
    have h2 : 8 + (i - 8) = i := by omega
    simp only [BitVec.getLsbD_extractLsb', h1, h2, decide_true, Bool.true_and] at this
    simp [hb, this]

/-- A byte widened to `V` has nothing in `V[31:8]`. -/
@[simp] theorem high_setWidth (b : Byte) : (b.setWidth 32).extractLsb' 8 24 = 0 := by
  apply BitVec.eq_of_getLsbD_eq
  intro i hi
  have : ¬ 8 + i < 8 := by omega
  simp only [BitVec.getLsbD_extractLsb', BitVec.getLsbD_setWidth, BitVec.getLsbD_of_ge b (8 + i) (by omega)]
  simp

@[simp] theorem setWidth_setWidth_byte (b : Byte) : (b.setWidth 32).setWidth 8 = b := by
  apply BitVec.eq_of_getLsbD_eq
  intro i hi
  have : i < 32 := by omega
  simp [hi]

/-- A word whose `RSV` is zero is assembled from its fields (R66). -/
theorem assemble_fields {w : CmdWord} (h : rsvField w = 0) : assemble (opField w) (nField w) (vField w) = w := by
  apply BitVec.eq_of_getLsbD_eq
  intro i hi
  rw [getLsbD_assemble]
  split
  · rename_i h1
    simp [vField, h1]
  · split
    · rename_i h1 h2
      have e1 : i - 32 < 6 := by omega
      have e2 : 32 + (i - 32) = i := by omega
      simp only [nField, BitVec.getLsbD_extractLsb', e1, e2, decide_true, Bool.true_and]
    · split
      · rename_i h1 h2 h3
        have e0 := congrArg (fun x => x.getLsbD (i - 38)) h
        have e1 : i - 38 < 2 := by omega
        have e2 : 38 + (i - 38) = i := by omega
        simp only [rsvField, BitVec.getLsbD_extractLsb', e1, e2, decide_true, Bool.true_and] at e0
        simp [e0]
      · rename_i h1 h2 h3
        have e1 : i - 40 < 8 := by omega
        have e2 : 40 + (i - 40) = i := by omega
        simp only [opField, BitVec.getLsbD_extractLsb', e1, e2, decide_true, Bool.true_and]

/-- The numeric value of an assembled word (R75). -/
theorem toNat_assemble (op : BitVec 8) (n : Len) (v : Word) :
    (assemble op n v).toNat = op.toNat * 2 ^ 40 + n.toNat * 2 ^ 32 + v.toNat := by
  have hn := n.isLt
  have hv := v.isLt
  unfold assemble
  rw [BitVec.toNat_append, ← Nat.shiftLeft_add_eq_or_of_lt hv, BitVec.toNat_append,
    ← Nat.shiftLeft_add_eq_or_of_lt hn, BitVec.toNat_append, ← Nat.shiftLeft_add_eq_or_of_lt (by decide)]
  simp only [Nat.shiftLeft_eq, BitVec.toNat_ofNat]
  omega

/-! ### What a word that decodes looks like, format by format (R67) -/

theorem formatW_command {w : CmdWord} {f : Word → Len → Instr} {i : Instr} (h : formatW w f = .command i) :
    rsvField w = 0 ∧ i = f (vField w) (nField w) := by
  unfold formatW at h
  split at h <;> simp_all

theorem formatB_command {w : CmdWord} {f : Byte → Instr} {i : Instr} (h : formatB w f = .command i) :
    rsvField w = 0 ∧ nField w = 0 ∧ vHighField w = 0 ∧ i = f (byteField w) := by
  unfold formatB at h
  repeat' split at h
  all_goals simp_all

theorem formatZ_command {w : CmdWord} {j i : Instr} (h : formatZ w j = .command i) :
    rsvField w = 0 ∧ nField w = 0 ∧ vField w = 0 ∧ i = j := by
  unfold formatZ at h
  repeat' split at h
  all_goals simp_all

theorem opField_eq_ofNat {w : CmdWord} {k : Nat} (h : (opField w).toNat = k) : opField w = BitVec.ofNat 8 k := by
  simp [← h]

/-! ### What a row of the opcode map selects, format by format (R67, R69) -/

theorem opField_and (w m : CmdWord) : opField (w &&& m) = opField w &&& opField m := BitVec.extractLsb'_and
theorem rsvField_and (w m : CmdWord) : rsvField (w &&& m) = rsvField w &&& rsvField m := BitVec.extractLsb'_and
theorem nField_and (w m : CmdWord) : nField (w &&& m) = nField w &&& nField m := BitVec.extractLsb'_and
theorem vField_and (w m : CmdWord) : vField (w &&& m) = vField w &&& vField m := BitVec.extractLsb'_and

theorem eq_assemble_iff {w : CmdWord} {op : BitVec 8} {n : Len} {v : Word} :
    w = assemble op n v ↔ opField w = op ∧ rsvField w = 0 ∧ nField w = n ∧ vField w = v := by
  constructor
  · rintro rfl
    simp
  · rintro ⟨rfl, hr, rfl, rfl⟩
    exact (assemble_fields hr).symm

theorem selects_formatW {w : CmdWord} {op : BitVec 8} :
    w &&& 0xFFC000000000 = assemble op 0 0 ↔ opField w = op ∧ rsvField w = 0 := by
  rw [eq_assemble_iff, opField_and, rsvField_and, nField_and, vField_and,
    show opField 0xFFC000000000 = BitVec.allOnes 8 by decide, show rsvField 0xFFC000000000 = BitVec.allOnes 2 by decide,
    show nField 0xFFC000000000 = 0#6 by decide, show vField 0xFFC000000000 = 0#32 by decide]
  simp only [BitVec.and_allOnes, BitVec.and_zero]
  exact ⟨fun h => ⟨h.1, h.2.1⟩, fun h => ⟨h.1, h.2, rfl, rfl⟩⟩

theorem selects_formatZ {w : CmdWord} {op : BitVec 8} :
    w &&& 0xFFFFFFFFFFFF = assemble op 0 0 ↔ opField w = op ∧ rsvField w = 0 ∧ nField w = 0 ∧ vField w = 0 := by
  rw [show (0xFFFFFFFFFFFF : CmdWord) = BitVec.allOnes 48 by decide, BitVec.and_allOnes, eq_assemble_iff]

theorem selects_formatB {w : CmdWord} {op : BitVec 8} :
    w &&& 0xFFFFFFFFFF00 = assemble op 0 0 ↔
      opField w = op ∧ rsvField w = 0 ∧ nField w = 0 ∧ vHighField w = 0 := by
  have hv : vField w &&& 0xFFFFFF00 = 0 ↔ vHighField w = 0 := by
    rw [vHighField_eq]
    constructor
    · intro h
      have := congrArg (fun x => x.extractLsb' 8 24) h
      simp only [BitVec.extractLsb'_and, show (0xFFFFFF00 : Word).extractLsb' 8 24 = BitVec.allOnes 24 by decide,
        BitVec.and_allOnes] at this
      exact this.trans (by decide)
    · intro h
      rw [← setWidth_byte_of_high h]
      apply BitVec.eq_of_getLsbD_eq
      intro i hi
      by_cases hb : i < 8
      · have hm : ∀ j : Fin 8, (0xFFFFFF00 : Word).getLsbD j = false := by decide
        rw [BitVec.getLsbD_and, hm ⟨i, hb⟩, Bool.and_false]
        exact BitVec.getLsbD_zero.symm
      · simp [hb]
  rw [eq_assemble_iff, opField_and, rsvField_and, nField_and, vField_and,
    show opField 0xFFFFFFFFFF00 = BitVec.allOnes 8 by decide, show rsvField 0xFFFFFFFFFF00 = BitVec.allOnes 2 by decide,
    show nField 0xFFFFFFFFFF00 = BitVec.allOnes 6 by decide, show vField 0xFFFFFFFFFF00 = 0xFFFFFF00 by decide]
  simp only [BitVec.and_allOnes, hv]

end Sys2Proof
end

