-- ==== Sys2Proof/Laws/State.lean ====
section
/-! SUPPORT. One lemma per field per state update of Machine/Ops.lean, so that no later proof unfolds a record update. -/

namespace Sys2Proof.Machine

/-! ### respond -/

@[simp] theorem respond_acc (r : Resp) (s : State) : (respond r s).acc = s.acc := rfl
@[simp] theorem respond_fill (r : Resp) (s : State) : (respond r s).fill = s.fill := rfl
@[simp] theorem respond_fault (r : Resp) (s : State) : (respond r s).fault = s.fault := rfl
@[simp] theorem respond_cause (r : Resp) (s : State) : (respond r s).cause = s.cause := rfl
@[simp] theorem respond_tbl (r : Resp) (s : State) : (respond r s).tbl = s.tbl := rfl
@[simp] theorem respond_tmPresent (r : Resp) (s : State) : (respond r s).tmPresent = s.tmPresent := rfl
@[simp] theorem respond_tmCode (r : Resp) (s : State) : (respond r s).tmCode = s.tmCode := rfl
@[simp] theorem respond_tmLen (r : Resp) (s : State) : (respond r s).tmLen = s.tmLen := rfl
@[simp] theorem respond_out (r : Resp) (s : State) : (respond r s).out = s.out := rfl
@[simp] theorem respond_resps (r : Resp) (s : State) : (respond r s).resps = s.resps ++ [r] := rfl
@[simp] theorem respond_inputs (r : Resp) (s : State) : (respond r s).inputs = s.inputs := rfl
@[simp] theorem respond_pos (r : Resp) (s : State) : (respond r s).pos = s.pos := rfl

/-! ### raise -/

@[simp] theorem raise_acc (c : BitVec 2) (s : State) : (raise c s).acc = s.acc := rfl
@[simp] theorem raise_fill (c : BitVec 2) (s : State) : (raise c s).fill = s.fill := rfl
@[simp] theorem raise_fault (c : BitVec 2) (s : State) : (raise c s).fault = true := rfl
@[simp] theorem raise_cause (c : BitVec 2) (s : State) : (raise c s).cause = c := rfl
@[simp] theorem raise_tbl (c : BitVec 2) (s : State) : (raise c s).tbl = s.tbl := rfl
@[simp] theorem raise_tmPresent (c : BitVec 2) (s : State) : (raise c s).tmPresent = s.tmPresent := rfl
@[simp] theorem raise_tmCode (c : BitVec 2) (s : State) : (raise c s).tmCode = s.tmCode := rfl
@[simp] theorem raise_tmLen (c : BitVec 2) (s : State) : (raise c s).tmLen = s.tmLen := rfl
@[simp] theorem raise_out (c : BitVec 2) (s : State) : (raise c s).out = s.out := rfl
@[simp] theorem raise_resps (c : BitVec 2) (s : State) : (raise c s).resps = s.resps ++ [respRaised c] := rfl
@[simp] theorem raise_inputs (c : BitVec 2) (s : State) : (raise c s).inputs = s.inputs := rfl
@[simp] theorem raise_pos (c : BitVec 2) (s : State) : (raise c s).pos = s.pos := rfl

/-! ### ignore -/

@[simp] theorem ignore_acc (s : State) : (ignore s).acc = s.acc := rfl
@[simp] theorem ignore_fill (s : State) : (ignore s).fill = s.fill := rfl
@[simp] theorem ignore_fault (s : State) : (ignore s).fault = s.fault := rfl
@[simp] theorem ignore_cause (s : State) : (ignore s).cause = s.cause := rfl
@[simp] theorem ignore_tbl (s : State) : (ignore s).tbl = s.tbl := rfl
@[simp] theorem ignore_tmPresent (s : State) : (ignore s).tmPresent = s.tmPresent := rfl
@[simp] theorem ignore_tmCode (s : State) : (ignore s).tmCode = s.tmCode := rfl
@[simp] theorem ignore_tmLen (s : State) : (ignore s).tmLen = s.tmLen := rfl
@[simp] theorem ignore_out (s : State) : (ignore s).out = s.out := rfl
@[simp] theorem ignore_resps (s : State) : (ignore s).resps = s.resps ++ [respDead s.cause] := rfl
@[simp] theorem ignore_inputs (s : State) : (ignore s).inputs = s.inputs := rfl
@[simp] theorem ignore_pos (s : State) : (ignore s).pos = s.pos := rfl

/-! ### applyReset -/

@[simp] theorem applyReset_acc (s : State) : (applyReset s).acc = 0 := rfl
@[simp] theorem applyReset_fill (s : State) : (applyReset s).fill = 0 := rfl
@[simp] theorem applyReset_fault (s : State) : (applyReset s).fault = false := rfl
@[simp] theorem applyReset_cause (s : State) : (applyReset s).cause = 0 := rfl
@[simp] theorem applyReset_tbl (s : State) : (applyReset s).tbl = s.tbl := rfl
@[simp] theorem applyReset_tmPresent (s : State) : (applyReset s).tmPresent = s.tmPresent := rfl
@[simp] theorem applyReset_tmCode (s : State) : (applyReset s).tmCode = s.tmCode := rfl
@[simp] theorem applyReset_tmLen (s : State) : (applyReset s).tmLen = s.tmLen := rfl
@[simp] theorem applyReset_out (s : State) : (applyReset s).out = s.out := rfl
@[simp] theorem applyReset_resps (s : State) : (applyReset s).resps = s.resps := rfl
@[simp] theorem applyReset_inputs (s : State) : (applyReset s).inputs = s.inputs := rfl
@[simp] theorem applyReset_pos (s : State) : (applyReset s).pos = s.pos := rfl

/-! ### appendOut -/

@[simp] theorem appendOut_acc (b : Byte) (s : State) : (appendOut b s).acc = s.acc := rfl
@[simp] theorem appendOut_fill (b : Byte) (s : State) : (appendOut b s).fill = s.fill := rfl
@[simp] theorem appendOut_fault (b : Byte) (s : State) : (appendOut b s).fault = s.fault := rfl
@[simp] theorem appendOut_cause (b : Byte) (s : State) : (appendOut b s).cause = s.cause := rfl
@[simp] theorem appendOut_tbl (b : Byte) (s : State) : (appendOut b s).tbl = s.tbl := rfl
@[simp] theorem appendOut_tmPresent (b : Byte) (s : State) : (appendOut b s).tmPresent = s.tmPresent := rfl
@[simp] theorem appendOut_tmCode (b : Byte) (s : State) : (appendOut b s).tmCode = s.tmCode := rfl
@[simp] theorem appendOut_tmLen (b : Byte) (s : State) : (appendOut b s).tmLen = s.tmLen := rfl
@[simp] theorem appendOut_out (b : Byte) (s : State) : (appendOut b s).out = s.out ++ [b] := rfl
@[simp] theorem appendOut_resps (b : Byte) (s : State) : (appendOut b s).resps = s.resps := rfl
@[simp] theorem appendOut_inputs (b : Byte) (s : State) : (appendOut b s).inputs = s.inputs := rfl
@[simp] theorem appendOut_pos (b : Byte) (s : State) : (appendOut b s).pos = s.pos := rfl

/-! ### advance -/

@[simp] theorem advance_acc (s : State) : (advance s).acc = s.acc := rfl
@[simp] theorem advance_fill (s : State) : (advance s).fill = s.fill := rfl
@[simp] theorem advance_fault (s : State) : (advance s).fault = s.fault := rfl
@[simp] theorem advance_cause (s : State) : (advance s).cause = s.cause := rfl
@[simp] theorem advance_tbl (s : State) : (advance s).tbl = s.tbl := rfl
@[simp] theorem advance_tmPresent (s : State) : (advance s).tmPresent = s.tmPresent := rfl
@[simp] theorem advance_tmCode (s : State) : (advance s).tmCode = s.tmCode := rfl
@[simp] theorem advance_tmLen (s : State) : (advance s).tmLen = s.tmLen := rfl
@[simp] theorem advance_out (s : State) : (advance s).out = s.out := rfl
@[simp] theorem advance_resps (s : State) : (advance s).resps = s.resps := rfl
@[simp] theorem advance_inputs (s : State) : (advance s).inputs = s.inputs := rfl
@[simp] theorem advance_pos (s : State) : (advance s).pos = s.pos + 1 := rfl

/-! ### configure -/

@[simp] theorem configure_acc (tbl : Vector TblEntry 256) (present : Bool) (code : Word) (len : Len) (s : State) : (configure tbl present code len s).acc = s.acc := rfl
@[simp] theorem configure_fill (tbl : Vector TblEntry 256) (present : Bool) (code : Word) (len : Len) (s : State) : (configure tbl present code len s).fill = s.fill := rfl
@[simp] theorem configure_fault (tbl : Vector TblEntry 256) (present : Bool) (code : Word) (len : Len) (s : State) : (configure tbl present code len s).fault = s.fault := rfl
@[simp] theorem configure_cause (tbl : Vector TblEntry 256) (present : Bool) (code : Word) (len : Len) (s : State) : (configure tbl present code len s).cause = s.cause := rfl
@[simp] theorem configure_tbl (tbl : Vector TblEntry 256) (present : Bool) (code : Word) (len : Len) (s : State) : (configure tbl present code len s).tbl = tbl := rfl
@[simp] theorem configure_tmPresent (tbl : Vector TblEntry 256) (present : Bool) (code : Word) (len : Len) (s : State) : (configure tbl present code len s).tmPresent = present := rfl
@[simp] theorem configure_tmCode (tbl : Vector TblEntry 256) (present : Bool) (code : Word) (len : Len) (s : State) : (configure tbl present code len s).tmCode = code := rfl
@[simp] theorem configure_tmLen (tbl : Vector TblEntry 256) (present : Bool) (code : Word) (len : Len) (s : State) : (configure tbl present code len s).tmLen = len := rfl
@[simp] theorem configure_out (tbl : Vector TblEntry 256) (present : Bool) (code : Word) (len : Len) (s : State) : (configure tbl present code len s).out = s.out := rfl
@[simp] theorem configure_resps (tbl : Vector TblEntry 256) (present : Bool) (code : Word) (len : Len) (s : State) : (configure tbl present code len s).resps = s.resps := rfl
@[simp] theorem configure_inputs (tbl : Vector TblEntry 256) (present : Bool) (code : Word) (len : Len) (s : State) : (configure tbl present code len s).inputs = s.inputs := rfl
@[simp] theorem configure_pos (tbl : Vector TblEntry 256) (present : Bool) (code : Word) (len : Len) (s : State) : (configure tbl present code len s).pos = s.pos := rfl

end Sys2Proof.Machine
end

