-- ==== Sys2Proof/Laws/Ops.lean ====
section
/-! SUPPORT. For each shared operation one lemma that says everything it can do, cited instead of unfolding it. -/

namespace Sys2Proof.Machine

open Sys2Proof.Safety

/-! ### The tests every command begins with -/

@[simp] theorem command_faulted {s t : State} (h : s.fault = true) : command s t = ignore s := by
  simp [command, h]

@[simp] theorem command_alive {s t : State} (h : s.fault = false) : command s t = t := by
  simp [command, h]

theorem overflows_eq_false {fill n : Len} :
    overflows fill n = false ↔ n.toNat < 32 ∧ fill.toNat + n.toNat ≤ 32 := by
  simp only [overflows, Bool.or_eq_false_iff, decide_eq_false_iff_not, Nat.not_le, Nat.not_lt,
    Config.lenLimit, Config.fillMax]

theorem overflows_eq_true {fill n : Len} :
    overflows fill n = true ↔ 32 ≤ n.toNat ∨ 32 < fill.toNat + n.toNat := by
  simp only [overflows, Bool.or_eq_true, decide_eq_true_eq]

/-! ### The bodies that write bits -/

theorem fill_add_eq {fill n : Len} :
    fill + n = BitVec.ofNat 6 (fill.toNat + n.toNat) := by
  apply BitVec.eq_of_toNat_eq; simp

theorem writeBits_fits {v : Word} {n : Len} {s : State} (h : Fits n s) :
    writeBits v n s = some (written v n s) := by
  simp [writeBits, overflows_eq_false.mpr h, written, fill_add_eq]

theorem writeBits_overflows {v : Word} {n : Len} {s : State} (h : ¬ Fits n s) :
    writeBits v n s = none := by
  have : overflows s.fill n = true := overflows_eq_true.mpr (by unfold Fits at h; omega)
  simp [writeBits, this]

theorem termBits_fits {s : State} (h : MarkerFits s) : termBits s = some (markerWritten s) := by
  unfold termBits markerRead markerWritten
  split <;> rename_i hm
  · split at hm <;> simp_all
  · split at hm
    · cases hm; rename_i hp; simp [hp, writeBits_fits (h hp)]
    · cases hm

theorem termBits_overflows {s : State} (h : ¬ MarkerFits s) : termBits s = none := by
  have ⟨hp, hf⟩ : s.tmPresent = true ∧ ¬ Fits s.tmLen s := by
    unfold MarkerFits at h; push Not at h; simpa [Fits] using h
  simp [termBits, markerRead, hp, writeBits_overflows hf]

theorem padBits_eq {s : State} (h : s.fill.toNat ≤ 32) : padBits s = some (padded s) := by
  unfold padBits
  by_cases ho : s.fill.toNat % 8 = 0
  · have : s.fill = BitVec.ofNat 6 s.fill.toNat := by simp
    simp [boundaryOffset, ho, padded]
  · have hlen : (BitVec.ofNat 6 (8 - s.fill.toNat % 8)).toNat = 8 - s.fill.toNat % 8 := by
      simp; omega
    have hmod : (8 - s.fill.toNat % 8) % 8 = 8 - s.fill.toNat % 8 := by omega
    rw [if_pos (by simpa [boundaryOffset] using ho)]
    simp only [boundaryOffset]
    rw [writeBits_fits (by unfold Fits; rw [hlen]; omega)]
    simp [written, padded, hlen, hmod]

/-! ### The bodies that read bytes -/

theorem getLsbD_mask (n i : Nat) : (mask n).getLsbD i = (decide (i < 32) && decide (i < n)) := by
  simp [mask, BitVec.getLsbD_ofNat, Nat.testBit_two_pow_sub_one]

theorem readByte_few {s : State} (h : s.fill.toNat < 8) : readByte s = none := by
  simp [readByte, h]

theorem readByte_ready {s : State} (h : 8 ≤ s.fill.toNat) :
    readByte s = some ((s.acc >>> (s.fill.toNat - 8)).setWidth 8,
      { s with acc := s.acc &&& mask (s.fill.toNat - 8), fill := BitVec.ofNat 6 (s.fill.toNat - 8) }) := by
  simp [readByte, Nat.not_lt.mpr h]

theorem toNat_ofNat_fill {k : Nat} (h : k < 64) : (BitVec.ofNat 6 k).toNat = k := by
  simp; omega

theorem drainedBytes_few {acc : Word} {fill : Nat} (h : fill < 8) : drainedBytes acc fill = [] := by
  simp [drainedBytes, Nat.div_eq_of_lt h]

theorem accDrained_few {acc : Word} {fill : Nat} (h : fill < 8) : accDrained acc fill = acc := by
  simp [accDrained, h]

/-- One turn of the loop, seen in the list of bytes: the oldest byte, then the bytes of what READB leaves. -/
theorem drainedBytes_ready {acc : Word} {fill : Nat} (h : 8 ≤ fill) :
    drainedBytes acc fill =
      (acc >>> (fill - 8)).setWidth 8 :: drainedBytes (acc &&& mask (fill - 8)) (fill - 8) := by
  have hd : fill / 8 = (fill - 8) / 8 + 1 := by omega
  simp only [drainedBytes, hd, List.range_succ_eq_map, List.map_cons, List.map_map]
  congr 1
  apply List.map_congr_left
  intro k hk
  have hk' : k < (fill - 8) / 8 := List.mem_range.mp hk
  have hs : fill - 8 * (k + 1 + 1) = fill - 8 - 8 * (k + 1) := by omega
  apply BitVec.eq_of_getLsbD_eq
  intro i hi
  simp only [Function.comp, Nat.succ_eq_add_one, BitVec.getLsbD_setWidth, BitVec.getLsbD_ushiftRight,
    BitVec.getLsbD_and, getLsbD_mask, hs]
  by_cases hb : fill - 8 - 8 * (k + 1) + i < 32
  · have : fill - 8 - 8 * (k + 1) + i < fill - 8 := by omega
    simp [hb, this]
  · simp [BitVec.getLsbD_of_ge _ _ (Nat.le_of_not_lt hb)]

theorem mask_and_mask {m n : Nat} (h : m ≤ n) (acc : Word) : acc &&& mask n &&& mask m = acc &&& mask m := by
  apply BitVec.eq_of_getLsbD_eq
  intro i hi
  simp only [BitVec.getLsbD_and, getLsbD_mask]
  by_cases hm : i < m
  · have : i < n := by omega
    simp [hm, this]
  · simp [hm]

theorem accDrained_ready {acc : Word} {fill : Nat} (h : 8 ≤ fill) :
    accDrained acc fill = accDrained (acc &&& mask (fill - 8)) (fill - 8) := by
  have h1 : ¬ fill < 8 := by omega
  have hm : fill % 8 = (fill - 8) % 8 := by omega
  by_cases h2 : fill - 8 < 8
  · simp only [accDrained, h1, h2, if_true, if_false]
    rw [hm, Nat.mod_eq_of_lt h2]
  · simp only [accDrained, h1, h2, if_false]
    rw [mask_and_mask (by omega), hm]

/-- The loop of DRAIN, with as many turns as there are complete bytes, moves out exactly those bytes. -/
theorem drainLoop_eq (k : Nat) : ∀ s : State, s.fill.toNat / 8 = k → drainLoop k s = (drained s, k) := by
  induction k with
  | zero =>
    intro s h
    have hf : s.fill.toNat < 8 := by omega
    simp [drainLoop, drained, accDrained_few hf, drainedBytes_few hf, Nat.mod_eq_of_lt hf]
  | succ k ih =>
    intro s h
    have hf : 8 ≤ s.fill.toNat := by omega
    have hlt := s.fill.isLt
    have hf' : (BitVec.ofNat 6 (s.fill.toNat - 8)).toNat = s.fill.toNat - 8 := toNat_ofNat_fill (by omega)
    have hm : (s.fill.toNat - 8) % 8 = s.fill.toNat % 8 := by omega
    simp only [drainLoop, readByte_ready hf]
    rw [ih _ (by simp only [appendOut_fill, hf']; omega)]
    simp only [drained, appendOut, hf', hm, accDrained_ready hf, drainedBytes_ready hf,
      List.append_assoc, List.singleton_append]

theorem drainRespond_eq (s : State) :
    drainRespond s = respond (respCount (s.fill.toNat / 8)) (drained s) := by
  simp [drainRespond, drainLoop_eq _ s rfl]

/-! ### Ending a command, and commands that never stop -/

@[simp] theorem settle_none (s : State) (k : State → State) : settle s none k = raise causeOverflow s := rfl

@[simp] theorem settle_some (s t : State) (k : State → State) : settle s (some t) k = k t := rfl

/-- Every command ends in a next state: a fault of the block is a state, not a stop (R39, R124). -/
theorem exec_next (i : Instr) (s : State) : ∃ t, exec i s = .next t := by
  cases i <;> exact ⟨_, rfl⟩

/-! ### The host's side -/

theorem placeInput_at (x : HostInput) (k : Nat) (xs : List HostInput) : (placeInput x k xs)[k]? = some x := by
  unfold placeInput
  rw [List.getElem?_append_right (by simp; omega)]
  have : k - (xs.take k ++ List.replicate (k - xs.length) HostInput.rst).length = 0 := by simp; omega
  rw [this, List.getElem?_cons_zero]

theorem fetch_withFetchWord (s : State) (nbits w : Nat) :
    fetch (s.withFetchWord nbits w) = some (.command (tableWord nbits w)) := by
  simp [fetch, State.withFetchWord, placeInput_at]

end Sys2Proof.Machine
end

