-- ==== Sys2Proof/Laws/PerInstr.lean ====
section
/-! SUPPORT. Per command: the word of a command has `RSV = 0` and carries the `OP` that the opcode map gives its mnemonic (30_encoding.md
R66, R69). -/

namespace Sys2Proof.Laws.EncodedFields

/-- `RSV` is 0 and `OP` is that of the row with the command's mnemonic. -/
def Statement (i : Instr) : Prop :=
  rsvField (encode i) = 0 ∧
    ∃ r ∈ opcodeMap, r.mnemonic = i.mnemonic ∧ opField r.pattern = opField (encode i)

theorem of_row {i : Instr} {op : BitVec 8} {n : Len} {v : Word} (he : encode i = assemble op n v)
    (hr : ∃ r ∈ opcodeMap, r.mnemonic = i.mnemonic ∧ opField r.pattern = op) : Statement i := by
  simpa [Statement, he] using hr

theorem write (v : Word) (n : Len) : Statement (.write v n) := of_row rfl ⟨_, .head _, rfl, by decide⟩
theorem readb : Statement .readb := of_row rfl (by decide)
theorem boff : Statement .boff := of_row rfl (by decide)
theorem enc (b : Byte) : Statement (.enc b) :=
  of_row rfl ⟨⟨"ENC", 0x200000000000, 0xFFFFFFFFFF00⟩, by decide, rfl, by decide⟩
theorem term : Statement .term := of_row rfl (by decide)
theorem fin : Statement .fin := of_row rfl (by decide)
theorem next : Statement .next := of_row rfl (by decide)
theorem start : Statement .start := of_row rfl (by decide)
theorem drain : Statement .drain := of_row rfl (by decide)
theorem push (b : Byte) : Statement (.push b) :=
  of_row rfl ⟨⟨"PUSH", 0x320000000000, 0xFFFFFFFFFF00⟩, by decide, rfl, by decide⟩
theorem endRun : Statement .endRun := of_row rfl (by decide)

end Sys2Proof.Laws.EncodedFields
end

