-- ==== Sys2Proof/Laws/Queue.lean ====
section
/-! SUPPORT. The queue of live bits (10_state.md R21, R23) under the operations: a well-formed write appends its bits, an extraction takes
the first eight, a drain takes every complete byte, the padding appends zeros. -/

namespace Sys2Proof.Safety

open Sys2Proof.Machine

/-! ### Bit strings -/

@[simp] theorem length_bitsMsbFirst (v : Word) (n : Nat) : (bitsMsbFirst v n).length = n := by
  simp [bitsMsbFirst]

@[simp] theorem length_byteBits (b : Byte) : (byteBits b).length = 8 := by
  simp [byteBits]

theorem getElem?_bitsMsbFirst {v : Word} {n k : Nat} (h : k < n) :
    (bitsMsbFirst v n)[k]? = some (v.getLsbD (n - 1 - k)) := by
  simp [bitsMsbFirst, h]

theorem getElem?_byteBits {b : Byte} {k : Nat} (h : k < 8) : (byteBits b)[k]? = some (b.getLsbD (7 - k)) := by
  simp [byteBits, h]

/-- A list of `n` bits is that of `v` when its bit `k` is bit `n - 1 - k` of `v`. -/
theorem eq_bitsMsbFirst {l : List Bool} {v : Word} {n : Nat} (hl : l.length = n)
    (h : ∀ k, k < n → l[k]? = some (v.getLsbD (n - 1 - k))) : l = bitsMsbFirst v n := by
  apply List.ext_getElem?
  intro k
  by_cases hk : k < n
  · rw [h k hk, getElem?_bitsMsbFirst hk]
  · rw [List.getElem?_eq_none (by omega), List.getElem?_eq_none (by rw [length_bitsMsbFirst]; omega)]

@[simp] theorem streamBits_nil : streamBits [] = [] := rfl

@[simp] theorem streamBits_append (as bs : List Byte) : streamBits (as ++ bs) = streamBits as ++ streamBits bs := by
  simp [streamBits]

@[simp] theorem streamBits_cons (b : Byte) (bs : List Byte) : streamBits (b :: bs) = byteBits b ++ streamBits bs := by
  simp [streamBits]

theorem length_streamBits (bs : List Byte) : (streamBits bs).length = 8 * bs.length := by
  induction bs with
  | nil => rfl
  | cons b bs ih => rw [streamBits_cons, List.length_append, length_byteBits, ih, List.length_cons]; omega

/-- A well-formed code has no set bit at or above its length (R17). -/
theorem getLsbD_of_wellFormed {v : Word} {n : Len} (h : wellFormedCode v n = true) {k : Nat} (hk : n.toNat ≤ k) :
    v.getLsbD k = false := by
  have hv : v.toNat < 2 ^ n.toNat := by simpa [wellFormedCode] using h
  exact Nat.testBit_lt_two_pow (lt_of_lt_of_le hv (Nat.pow_le_pow_right (by decide) hk))

theorem getLsbD_of_deadZero {s : State} (h : DeadZero s) {k : Nat} (hk : s.fill.toNat ≤ k) : s.acc.getLsbD k = false :=
  Nat.testBit_lt_two_pow (lt_of_lt_of_le h (Nat.pow_le_pow_right (by decide) hk))

/-- Dead bits are zero when each of them is. -/
theorem deadZero_of_getLsbD {s : State} (h : ∀ k, s.fill.toNat ≤ k → k < 32 → s.acc.getLsbD k = false) : DeadZero s := by
  apply Nat.lt_pow_two_of_testBit
  intro k hk
  by_cases h32 : k < 32
  · exact h k hk h32
  · exact BitVec.getLsbD_of_ge s.acc k (by omega)

/-! ### Writes -/

theorem written_fill {v : Word} {n : Len} {s : State} (h : Fits n s) :
    (written v n s).fill.toNat = s.fill.toNat + n.toNat := by
  have := h.2
  exact toNat_ofNat_fill (by omega)

theorem written_bit {v : Word} {n : Len} {s : State} {k : Nat} (hk : k < 32) :
    (written v n s).acc.getLsbD k =
      ((!decide (k < n.toNat) && s.acc.getLsbD (k - n.toNat)) || v.getLsbD k) := by
  simp only [written, BitVec.getLsbD_or, BitVec.getLsbD_shiftLeft, hk, decide_true, Bool.true_and]

/-- A well-formed write appends its bits to the queue (R88). -/
theorem liveBits_written {v : Word} {n : Len} {s : State} (h : Fits n s) (hw : wellFormedCode v n = true) :
    liveBits (written v n s) = liveBits s ++ bitsMsbFirst v n.toNat := by
  have h2 := h.2
  symm
  unfold liveBits
  rw [written_fill h]
  apply eq_bitsMsbFirst (by simp)
  intro k hk
  rw [written_bit (by omega)]
  by_cases hb : k < s.fill.toNat
  · rw [List.getElem?_append_left (by simpa using hb), getElem?_bitsMsbFirst hb, getLsbD_of_wellFormed hw (by omega)]
    have e1 : ¬ s.fill.toNat + n.toNat - 1 - k < n.toNat := by omega
    have e2 : s.fill.toNat + n.toNat - 1 - k - n.toNat = s.fill.toNat - 1 - k := by omega
    simp [e1, e2]
  · rw [List.getElem?_append_right (by simpa using hb), length_bitsMsbFirst, getElem?_bitsMsbFirst (by omega)]
    have e1 : s.fill.toNat + n.toNat - 1 - k < n.toNat := by omega
    have e2 : n.toNat - 1 - (k - s.fill.toNat) = s.fill.toNat + n.toNat - 1 - k := by omega
    simp [e1, e2]

/-- A well-formed write keeps the dead bits zero (R22). -/
theorem deadZero_written {v : Word} {n : Len} {s : State} (h : Fits n s) (hw : wellFormedCode v n = true)
    (hd : DeadZero s) : DeadZero (written v n s) := by
  apply deadZero_of_getLsbD
  intro k hk h32
  rw [written_fill h] at hk
  rw [written_bit h32, getLsbD_of_wellFormed hw (by omega), getLsbD_of_deadZero hd (by omega)]
  simp

/-! ### Extraction -/

/-- The first eight live bits are the oldest byte, and the rest are what READB keeps (R85, R88). -/
theorem bitsMsbFirst_ready (acc : Word) {fill : Nat} (h : 8 ≤ fill) :
    bitsMsbFirst acc fill =
      byteBits ((acc >>> (fill - 8)).setWidth 8) ++ bitsMsbFirst (acc &&& mask (fill - 8)) (fill - 8) := by
  symm
  apply eq_bitsMsbFirst (by simp; omega)
  intro k hk
  by_cases hb : k < 8
  · rw [List.getElem?_append_left (by simpa using hb), getElem?_byteBits hb]
    have e1 : 7 - k < 8 := by omega
    have e2 : fill - 8 + (7 - k) = fill - 1 - k := by omega
    simp only [BitVec.getLsbD_setWidth, BitVec.getLsbD_ushiftRight, e1, e2, decide_true, Bool.true_and]
  · rw [List.getElem?_append_right (by simpa using hb), length_byteBits, getElem?_bitsMsbFirst (by omega)]
    have e1 : fill - 8 - 1 - (k - 8) = fill - 1 - k := by omega
    have e2 : fill - 1 - k < fill - 8 := by omega
    simp only [BitVec.getLsbD_and, getLsbD_mask, e1, e2, decide_true, Bool.and_true]
    by_cases h32 : fill - 1 - k < 32
    · simp [h32]
    · simp [BitVec.getLsbD_of_ge acc _ (Nat.le_of_not_lt h32)]

/-- A drain takes every complete byte from the front of the queue and leaves the rest (R104, R89). -/
theorem bitsMsbFirst_drained (acc : Word) (fill : Nat) :
    bitsMsbFirst acc fill =
      streamBits (drainedBytes acc fill) ++ bitsMsbFirst (accDrained acc fill) (fill % 8) := by
  induction fill using Nat.strongRecOn generalizing acc with
  | ind fill ih =>
    by_cases h : fill < 8
    · rw [drainedBytes_few h, accDrained_few h, Nat.mod_eq_of_lt h, streamBits_nil, List.nil_append]
    · have h8 : 8 ≤ fill := by omega
      have hm : fill % 8 = (fill - 8) % 8 := by omega
      rw [bitsMsbFirst_ready acc h8, ih (fill - 8) (by omega), drainedBytes_ready h8, accDrained_ready h8, hm,
        streamBits_cons, List.append_assoc]

theorem drained_fill (s : State) : (drained s).fill.toNat = s.fill.toNat % 8 :=
  toNat_ofNat_fill (by omega)

theorem liveBits_drained (s : State) :
    liveBits s = streamBits (drainedBytes s.acc s.fill.toNat) ++ liveBits (drained s) := by
  unfold liveBits
  rw [drained_fill]
  exact bitsMsbFirst_drained s.acc s.fill.toNat

theorem length_drainedBytes (acc : Word) (fill : Nat) : (drainedBytes acc fill).length = fill / 8 := by
  simp [drainedBytes]

theorem and_mask_lt (acc : Word) {n : Nat} (h : n ≤ 32) : (acc &&& mask n).toNat < 2 ^ n := by
  have hm : (mask n).toNat < 2 ^ n := by
    have : 2 ^ n ≤ 2 ^ 32 := Nat.pow_le_pow_right (by decide) h
    have : 0 < 2 ^ n := Nat.two_pow_pos n
    simp [mask]
    omega
  exact lt_of_le_of_lt (by rw [BitVec.toNat_and]; exact Nat.and_le_right) hm

theorem deadZero_drained {s : State} (hd : DeadZero s) : DeadZero (drained s) := by
  unfold DeadZero
  rw [drained_fill]
  by_cases h : s.fill.toNat < 8
  · rw [show (drained s).acc = s.acc from accDrained_few h, Nat.mod_eq_of_lt h]
    exact hd
  · rw [show (drained s).acc = s.acc &&& mask (s.fill.toNat % 8) by simp [drained, accDrained, h]]
    exact and_mask_lt _ (by omega)

/-! ### Padding -/

theorem padded_fill {s : State} (h : s.fill.toNat ≤ 32) : (padded s).fill.toNat = 8 * ((s.fill.toNat + 7) / 8) := by
  have : (padded s).fill.toNat = s.fill.toNat + (8 - s.fill.toNat % 8) % 8 := toNat_ofNat_fill (by omega)
  omega

/-- Padding appends zero bits up to the next byte boundary (R94). -/
theorem liveBits_padded {s : State} (h : s.fill.toNat ≤ 32) : liveBits (padded s) = zeroPadded (liveBits s) := by
  symm
  have hf : (padded s).fill.toNat = s.fill.toNat + (8 - s.fill.toNat % 8) % 8 := toNat_ofNat_fill (by omega)
  unfold liveBits zeroPadded
  rw [hf]
  apply eq_bitsMsbFirst (by simp)
  intro k hk
  have hacc : ∀ j, j < 32 → (padded s).acc.getLsbD j =
      (!decide (j < (8 - s.fill.toNat % 8) % 8) && s.acc.getLsbD (j - (8 - s.fill.toNat % 8) % 8)) := by
    intro j hj
    simp only [padded, BitVec.getLsbD_shiftLeft, hj, decide_true, Bool.true_and]
  rw [hacc _ (by omega), length_bitsMsbFirst]
  by_cases hb : k < s.fill.toNat
  · rw [List.getElem?_append_left (by simpa using hb), getElem?_bitsMsbFirst hb]
    have e1 : ¬ s.fill.toNat + (8 - s.fill.toNat % 8) % 8 - 1 - k < (8 - s.fill.toNat % 8) % 8 := by omega
    have e2 : s.fill.toNat + (8 - s.fill.toNat % 8) % 8 - 1 - k - (8 - s.fill.toNat % 8) % 8 = s.fill.toNat - 1 - k := by
      omega
    simp [e1, e2]
  · rw [List.getElem?_append_right (by simpa using hb), length_bitsMsbFirst, List.getElem?_replicate]
    have e1 : s.fill.toNat + (8 - s.fill.toNat % 8) % 8 - 1 - k < (8 - s.fill.toNat % 8) % 8 := by omega
    have e2 : k - s.fill.toNat < (8 - s.fill.toNat % 8) % 8 := by omega
    simp [e1, e2]

theorem deadZero_padded {s : State} (h : s.fill.toNat ≤ 32) (hd : DeadZero s) : DeadZero (padded s) := by
  have hf : (padded s).fill.toNat = s.fill.toNat + (8 - s.fill.toNat % 8) % 8 := toNat_ofNat_fill (by omega)
  apply deadZero_of_getLsbD
  intro k hk h32
  rw [hf] at hk
  simp only [padded, BitVec.getLsbD_shiftLeft]
  rw [getLsbD_of_deadZero hd (by omega), Bool.and_false]

end Sys2Proof.Safety
end

