-- ==== Sys2Proof/Tests/Slice0.lean ====
section
/-! SUPPORT. Tests. Every expected value is printed in spec/ (30_encoding.md R75, 95_test_vectors.md), the vector's id beside it; then the
ill-formed terms each well-formedness check refuses; then one witness for every obligation that has hypotheses. -/

namespace Sys2Proof.Tests

open Sys2Proof Sys2Proof.Machine Sys2Proof.Safety

/-! ### Small states -/

/-- A block with no fault, the given ACC and FILL, and everything else as after reset. -/
def block (acc : Word) (fill : Len) : State :=
  { State.reset with acc := acc, fill := fill }

/-- The same state with one table entry. -/
def withEntry (b : Byte) (code : Word) (len : Len) (s : State) : State :=
  { s with tbl := s.tbl.set b.toNat ⟨len, code⟩ b.isLt }

/-- The same state with a marker. -/
def withMarker (code : Word) (len : Len) (s : State) : State :=
  { s with tmPresent := true, tmCode := code, tmLen := len }

/-- The same state, faulted. -/
def dead (c : BitVec 2) (s : State) : State :=
  { s with fault := true, cause := c }

/-- The same state with a host that presents these inputs next. -/
def presenting (xs : List HostInput) (s : State) : State :=
  { s with inputs := xs }

/-- What a word gives when it is fetched, decoded and executed in one step. -/
def after {α : Type} (w : Nat) (s : State) (f : State → α) : Option α :=
  match step (s.withFetchWord 48 w) with
  | .next t => some (f t)
  | .fault _ => none
  | .refused _ => none

/-- ACC and FILL. -/
def accFill (t : State) : Word × Len := (t.acc, t.fill)

/-- The word of the last response. -/
def answer (t : State) : Option RespWord := t.resps.getLast?.map respWord

/-- The last response and the bytes of OUT. -/
def answerOut (t : State) : Option RespWord × List Byte := (answer t, t.out)

/-! ### Decoding (R75, and 95_test_vectors.md 2.9) -/

theorem test_decode_write : decode 0x10040000000A = .command (.write 0b1010 4) := by decide
theorem test_decode_readb : decode 0x110000000000 = .command .readb := by decide
theorem test_decode_boff : decode 0x120000000000 = .command .boff := by decide
theorem test_decode_enc : decode 0x2000000000E4 = .command (.enc 0xE4) := by decide
theorem test_decode_term : decode 0x210000000000 = .command .term := by decide
theorem test_decode_fin : decode 0x220000000000 = .command .fin := by decide
theorem test_decode_next : decode 0x230000000000 = .command .next := by decide
theorem test_decode_start : decode 0x300000000000 = .command .start := by decide
theorem test_decode_drain : decode 0x310000000000 = .command .drain := by decide
theorem test_decode_push : decode 0x3200000000DB = .command (.push 0xDB) := by decide
theorem test_decode_end : decode 0x330000000000 = .command .endRun := by decide

/-- W11: the largest length a WRITE can carry decodes. -/
theorem test_decode_write_longest : decode 0x103F00000000 = .command (.write 0 63) := by decide

/-- The same word bit by bit from R66: OP 00010000, RSV 00, N 000100, V with its low four bits 1010. -/
theorem test_decode_write_bits :
    decode 0b00010000_00_000100_00000000000000000000000000001010#48 = .command (.write 0b1010 4) := by decide

/-- Every word of the list is illegal for this reason. -/
def allIllegal (why : IllegalReason) (ws : List CmdWord) : Bool := ws.all fun w => decide (decode w = .illegal why)

/-- I1 to I6. -/
theorem test_illegal_opcodes : allIllegal .opUnassigned
    [0x000000000000, 0xFFFFFFFFFFFF, 0x0F0000000000, 0x130000000000, 0x240000000000, 0x340000000000] = true := by decide
/-- I7, I11. -/
theorem test_illegal_reserved : allIllegal .rsvNonzero [0x104000000000, 0x214000000000] = true := by decide
/-- I12, I13. -/
theorem test_illegal_length : allIllegal .nNonzero [0x300100000000, 0x320100000041] = true := by decide
/-- I8, I9, I10, I14. -/
theorem test_illegal_value :
    allIllegal .vNonzero [0x110000000001, 0x200000000100, 0x2000000001E4, 0x330000000001] = true := by decide

theorem test_decodeTableWord : decodeTableWord 48 0x3200000000DB = some (.push 0xDB) := by decide
theorem test_decodeTableWord_refuses : decodeTableWord 48 0x320100000041 = none := by decide

/-- The first step after reset with a word in place runs it, and the index moves past it. -/
theorem test_withFetchWord : after 0x10050000001F State.reset (fun t => (t.acc, t.fill, t.pos)) = some (0x1F, 5, 1) := by decide

/-- The word takes the place of the one that stood there, and the words around it stay. -/
theorem test_withFetchWord_in_place :
    ({ presenting [.rst, .command 0, .command 1] State.reset with pos := 1 }.withFetchWord 48 0x110000000000).inputs =
      [.rst, .command 0x110000000000, .command 1] := by decide

/-! ### Well-formedness: what each check refuses -/

/-- I8: READB with `V` not 0 is no legal word; I7: WRITE with `RSV` not 0 neither. -/
theorem test_legalWord_refuses : legalWord 0x110000000001 = false ∧ legalWord 0x104000000000 = false := by decide
theorem test_legalWord_accepts : legalWord 0x110000000000 = true ∧ legalWord 0x103FFFFFFFFF = true := by decide
theorem test_selects_refuses : OpRow.selects ⟨"READB", 0x110000000000, 0xFFFFFFFFFFFF⟩ 0x110000000001 = false := by decide
/-- M2: 0x100 in 1 bit; M3: 2 in 0 bits. -/
theorem test_wellFormedCode_refuses : wellFormedCode 0x100 1 = false ∧ wellFormedCode 2 0 = false := by decide
theorem test_wellFormedCode_accepts :
    wellFormedCode 0 0 = true ∧ wellFormedCode 0x7FFFFFFF 31 = true ∧ wellFormedCode 0xFFFFFFFF 32 = true := by decide
/-- P5: the entry (0b110, 1). -/
theorem test_entry_refuses : TblEntry.wellFormed ⟨1, 0b110⟩ = false := by decide
theorem test_table_refuses : wellFormedTable (Vector.replicate 256 ⟨1, 0b110⟩) = false := by
  simp [wellFormedTable, TblEntry.wellFormed, wellFormedCode]
theorem test_marker_refuses : wellFormedMarker true 0b110 1 = false := by decide
theorem test_marker_absent_accepts : wellFormedMarker false 0b110 1 = true := by decide
/-- M1: `WRITE 6, 1`. -/
theorem test_operand_refuses : (Instr.write 6 1).wellFormedOperand = false := by decide
theorem test_input_refuses : inputWellFormed (.command 0x100100000006) = false := by decide

/-! ### One step (95_test_vectors.md) -/

/-- W6: 31 bits on top of 1; M1: an unmasked operand corrupts an older bit. -/
theorem test_write_shifts_and_ors : after 0x101F7FFFFFFF (block 1 1) accFill = some (0xFFFFFFFF, 32) ∧
    after 0x100100000006 (block 5 3) accFill = some (0xE, 4) := by decide
/-- W8: a 32-bit write faults at FILL 0. -/
theorem test_write_32_faults :
    after 0x1020FFFFFFFF (block 0 0) (fun t => (answer t, t.fault, t.cause)) = some (some 0x301, true, 1) := by decide
/-- RB6: the oldest byte of 25 bits. -/
theorem test_readb_oldest :
    after 0x110000000000 (block 0x01234567 25) (fun t => (accFill t, answer t)) = some ((0x14567, 17), some 0x191) := by decide
/-- RB2: 7 bits give nothing. -/
theorem test_readb_nothing :
    after 0x110000000000 (block 0x7F 7) (fun t => (accFill t, answer t)) = some ((0x7F, 7), some 0x000) := by decide
/-- BOFF at FILL 10 and 31. -/
theorem test_boff_10 : after 0x120000000000 (block 0x3FF 10) answer = some (some 0x102) := by decide
theorem test_boff_31 : after 0x120000000000 (block 0 31) answer = some (some 0x107) := by decide
/-- E4: ENC at the safe bound does not drain. -/
theorem test_enc_safe_bound :
    after 0x200000000042 (withEntry 0x42 0x1ABCDEF 25 (block 0x7F 7)) (fun t => (accFill t, t.out)) =
      some ((0xFFABCDEF, 32), []) := by decide
/-- E8: one bit too many. -/
theorem test_enc_overflows :
    after 0x200000000044 (withEntry 0x44 0x7FFFFFFF 31 (block 3 2)) (fun t => (accFill t, answer t)) =
      some ((3, 2), some 0x301) := by decide
/-- T2. -/
theorem test_term : after 0x210000000000 (withMarker 7 3 (block 0xA 4)) accFill = some (0x57, 7) := by decide
/-- T6: without a marker its length is not looked at. -/
theorem test_term_absent :
    after 0x210000000000 (presenting [] { block 0 0 with tmLen := 32 }) answer = some (some 0x000) := by decide
/-- F9: the pad brings FILL to 32. -/
theorem test_fin_to_32 : after 0x220000000000 (block 0x7FFFFFFF 31) accFill = some (0xFFFFFFFE, 32) := by decide
/-- F6. -/
theorem test_fin_9 : after 0x220000000000 (block 0x1FF 9) accFill = some (0xFF80, 16) := by decide
/-- RB10: a dead bit is neither returned nor kept; OUT is not used. -/
theorem test_next_dead_bit :
    after 0x230000000000 (block 0x8000 8) (fun t => (accFill t, answer t, t.out)) = some ((0, 0), some 0x100, []) := by decide
/-- START of 2.7. -/
theorem test_start : after 0x300000000000 (block 0xDEADBEEF 32) (fun t => (accFill t, answer t)) =
    some ((0, 0), some 0x000) := by decide
/-- D5. -/
theorem test_drain_25 : after 0x310000000000 (block 0x01234567 25) (fun t => (accFill t, answerOut t)) =
    some ((1, 1), some 0x103, [0x91, 0xA2, 0xB3]) := by decide
/-- D6. -/
theorem test_drain_full : after 0x310000000000 (block 0xDEADBEEF 32) answerOut =
    some (some 0x104, [0xDE, 0xAD, 0xBE, 0xEF]) := by decide
/-- P3, second PUSH. -/
theorem test_push_drains_three :
    after 0x320000000001 (withEntry 1 0x1ABCDEF 25 (block 1 1)) (fun t => (accFill t, answerOut t)) =
      some ((3, 2), some 0x103, [0xEA, 0xF3, 0x7B]) := by decide
/-- E10: a length of 32 faults through PUSH, nothing appended. -/
theorem test_push_overflows : after 0x320000000045 (withEntry 0x45 0 32 (block 0 0)) answerOut = some (some 0x301, []) := by decide
/-- V-E3. -/
theorem test_end_marker : after 0x330000000000 (withMarker 7 3 (block 0xA 4)) (fun t => (accFill t, answerOut t)) =
    some ((0, 0), some 0x101, [0xAE]) := by decide
/-- V-E5: the marker overflows, the 7 data bits are not appended. -/
theorem test_end_overflows : after 0x330000000000 (withMarker 0x3FFFFFF 26 (block 0x7F 7)) (fun t => (accFill t, answerOut t)) =
    some ((0x7F, 7), some 0x301, []) := by decide

/-- I10: an illegal word faults and changes neither ACC nor FILL. -/
theorem test_illegal_word : after 0x2000000001E4 (block 5 3) (fun t => (accFill t, answer t, t.cause)) =
    some ((5, 3), some 0x302, 2) := by decide
/-- 2.10: while faulted START is ignored, and so is an illegal word. -/
theorem test_dead_start : after 0x300000000000 (dead 1 (block 3 2)) (fun t => (accFill t, answer t)) =
    some ((3, 2), some 0x501) := by decide
theorem test_dead_illegal : after 0x000000000000 (dead 2 (block 3 2)) (fun t => (answer t, t.cause)) =
    some (some 0x502, 2) := by decide
/-- 2.10: RST leaves the faulted state. -/
theorem test_rst : ∃ t, step (presenting [.rst] (dead 1 (block 3 2))) = .next t ∧
    accFill t = (0, 0) ∧ t.fault = false ∧ t.cause = 0 ∧ t.resps = [] := ⟨_, rfl, by decide⟩

/-! ### Witnesses: a concrete input for every obligation with hypotheses -/

/-- The table of S2 and the marker of S5. -/
def runState : State := withMarker 7 3 (withEntry 0x42 0x1ABCDEF 25 (withEntry 0xE4 1 1 State.reset))

/-- A run of 26 bits and a marker. -/
def runInput : List Byte := [0xE4, 0x42]

theorem runState_premises : RunPremises runState runInput := ⟨by decide, by decide, by decide⟩
theorem runState_safe : SafeLengths runState runInput := ⟨by decide, by decide⟩
theorem runState_succeeds : ∃ t, Succeeded runState t runInput := ⟨_, rfl, by decide⟩

theorem block_inv {acc : Word} {fill : Len} (h : fill.toNat ≤ 32) : Inv (block acc fill) := by
  constructor <;> simp_all [block, State.reset]

theorem witness_DecodedWordIsEncoding : decode 0x1020FFFFFFFF = .command (.write 0xFFFFFFFF 32) := by decide

theorem witness_OpcodeMapDecides : (opcodeMap.all fun r => r.selects r.pattern) = true ∧
    decode 0x103FFFFFFFFF = .command (.write 0xFFFFFFFF 63) ∧ decode 0x2000000000FF = .command (.enc 0xFF) ∧
    decode 0x320000000000 = .command (.push 0) := by decide

theorem witness_IllegalEncodings : (block 5 3).fault = false ∧ decode 0x300100000000 = .illegal .nNonzero ∧
    opField 0x102000000000 = 0x10 ∧ rsvField 0x102000000000 = 0 ∧ 32 ≤ (32 : Len).toNat := by decide

theorem witness_TwoTestsComeFirst : (dead 1 (block 3 2)).fault = true ∧
    (block 3 2).fault = false ∧ legalWord 0x330000000001 = false ∧ legalWord 0x330000000000 = true := by decide
theorem witness_TwoTestsComeFirst_completes :
    ∃ t, exec .readb (block 0xAE 8) = .next t ∧ t.fault = false := ⟨_, rfl, by decide⟩

theorem witness_FaultedBlockIgnoresEveryWord : (dead 2 (block 3 2)).fault = true := by decide

theorem witness_FaultEntryIsPrecise :
    ∃ t, stepWord 0x1020FFFFFFFF (block 3 2) = .next t ∧ t.fault = true := ⟨_, rfl, by decide⟩
theorem witness_FaultEntryIsPrecise_illegal :
    ∃ t, stepWord 0 (block 3 2) = .next t ∧ t.fault = true ∧ t.cause = 2 := ⟨_, rfl, by decide⟩

theorem witness_FaultPriority : ∃ t, stepWord 0 (dead 1 (block 3 2)) = .next t := ⟨_, rfl⟩
theorem witness_FaultPriority_overflow : legalWord 0x1020FFFFFFFF = true ∧
    ∃ t, stepWord 0x1020FFFFFFFF (block 3 2) = .next t ∧ t.fault = true := ⟨by decide, _, rfl, by decide⟩

/-- W16 and W17: at FILL 32 a write of no bits completes, any other overflows. -/
theorem witness_OverflowExactly : (block 0xFFFFFFFF 32).fault = false ∧ (block 0xFFFFFFFF 32).fill.toNat ≤ 32 ∧
    (∃ t, exec (.write 0 0) (block 0xFFFFFFFF 32) = .next t ∧ t.fault = false) ∧
    (∃ t, exec (.write 1 1) (block 0xFFFFFFFF 32) = .next t ∧ t.fault = true) :=
  ⟨by decide, by decide, ⟨_, rfl, by decide⟩, ⟨_, rfl, by decide⟩⟩

/-- A result with 4 bytes, a fault, an ignored command, an illegal word. -/
theorem witness_ResponseContents :
    (∃ t, exec .drain (block 0xDEADBEEF 32) = .next t ∧ t.fault = false ∧ (block 0xDEADBEEF 32).fill.toNat ≤ 32) ∧
    (∃ t, exec (.write 1 1) (block 0xDEADBEEF 32) = .next t ∧ t.fault = true) ∧
    (∃ t, exec .boff (dead 1 (block 3 2)) = .next t) ∧
    (legalWord 0 = false ∧ ∃ u, stepWord 0 (block 3 2) = .next u) :=
  ⟨⟨_, rfl, by decide, by decide⟩, ⟨_, rfl, by decide⟩, ⟨_, rfl⟩, by decide, ⟨_, rfl⟩⟩

theorem witness_CommandFrames :
    (appends .readb = false ∧ ∃ t, exec .readb (block 0xAE 8) = .next t) ∧ (∃ t, exec .boff (block 5 3) = .next t) ∧
    ((block 0 31).fill.toNat ≤ 32 ∧ ∃ t, exec .fin (block 0 31) = .next t) ∧
    (∃ t, exec (.write 0 63) (block 0 0) = .next t ∧ t.cause ≠ (block 0 0).cause) :=
  ⟨⟨by decide, _, rfl⟩, ⟨_, rfl⟩, ⟨by decide, _, rfl⟩, ⟨_, rfl, by decide⟩⟩

/-- W6 (FILL + n is 32), W7 (33), W8 (n is 32). -/
theorem witness_WriteShiftsAndOrs : (block 1 1).fault = false ∧
    ((31 : Len).toNat < 32 ∧ (block 1 1).fill.toNat + (31 : Len).toNat ≤ 32) ∧
    32 < (block 3 2).fill.toNat + (31 : Len).toNat ∧ 32 ≤ (32 : Len).toNat := by decide

/-- M1, malformed. -/
theorem witness_WriteBitByBit : (block 5 3).fault = false ∧ Fits 1 (block 5 3) ∧
    ∃ t, exec (.write 6 1) (block 5 3) = .next t := ⟨by decide, by decide, _, rfl⟩

/-- The same states serve READB and NEXT. -/
theorem witness_ReadbTakesOldestByte : (block 0x7F 7).fault = false ∧ (block 0x7F 7).fill.toNat < 8 ∧
    (block 0xAE 8).fault = false ∧ 8 ≤ (block 0xAE 8).fill.toNat := by decide
theorem witness_NextReadsAsReadb : (block 0x7F 7).fault = false ∧ (block 0x7F 7).fill.toNat < 8 ∧
    (block 0xDEADBEEF 32).fault = false ∧ 8 ≤ (block 0xDEADBEEF 32).fill.toNat := by decide

theorem witness_BoffReturnsOffset : (block 0 31).fault = false := by decide

theorem witness_AccumulatorCommandsActOnQueue :
    (block 0x7F 7).fault = false ∧ (block 0x7F 7).fill.toNat ≤ 32 ∧ DeadZero (block 0x7F 7) ∧
    wellFormedCode 0x1FFFFFF 25 = true ∧ Fits 25 (block 0x7F 7) ∧ ¬ Fits 26 (block 0x7F 7) ∧
    (liveBits (block 0x7F 7)).length < 8 ∧ 8 ≤ (liveBits (block 0xAE 8)).length := by decide

theorem witness_QueueIsFirstInFirstOut :
    (∀ i ∈ [Instr.write 0x1F 5, .write 0x1F 5, .readb, .readb],
      i = .readb ∨ ∃ v n, i = .write v n ∧ wellFormedCode v n = true) ∧
    (block 0 0).fault = false ∧ (block 0 0).fill.toNat ≤ 32 ∧
    ∃ t, execAll [.write 0x1F 5, .write 0x1F 5, .readb, .readb] (block 0 0) = .next t ∧ t.fault = false := by
  refine ⟨?_, by decide, by decide, _, rfl, by decide⟩
  intro i hi
  simp only [List.mem_cons, List.not_mem_nil, or_false] at hi
  rcases hi with rfl | rfl | rfl | rfl
  · exact .inr ⟨_, _, rfl, by decide⟩
  · exact .inr ⟨_, _, rfl, by decide⟩
  · exact .inl rfl
  · exact .inl rfl

/-- E7, E8, and the empty entry of E6. -/
theorem witness_EncWritesTableEntry : (block 1 1).fault = false ∧
    Fits (tblRead (withEntry 0x44 0x7FFFFFFF 31 (block 1 1)) 0x44).len (withEntry 0x44 0x7FFFFFFF 31 (block 1 1)) ∧
    ¬ Fits (tblRead (withEntry 0x44 0x7FFFFFFF 31 (block 3 2)) 0x44).len (withEntry 0x44 0x7FFFFFFF 31 (block 3 2)) ∧
    (tblRead (block 5 3) 0x43 = ⟨0, 0⟩ ∧ (block 5 3).fill.toNat ≤ 32) := by decide

/-- E5 and E10. -/
theorem witness_PushEncodesThenDrains : (withEntry 0x42 0x1ABCDEF 25 (block 0x7F 7)).fault = false ∧
    Fits (tblRead (withEntry 0x42 0x1ABCDEF 25 (block 0x7F 7)) 0x42).len (withEntry 0x42 0x1ABCDEF 25 (block 0x7F 7)) ∧
    ¬ Fits (tblRead (withEntry 0x45 0 32 (block 0 0)) 0x45).len (withEntry 0x45 0 32 (block 0 0)) := by decide

/-- T1, V-E4 (7 + 25), T4 (7 + 26). -/
theorem witness_TermWritesMarker : (block 0xA 4).fault = false ∧ (block 0xA 4).tmPresent = false ∧
    ((withMarker 0x1FFFFFF 25 (block 0x7F 7)).tmPresent = true ∧ Fits 25 (block 0x7F 7)) ∧ ¬ Fits 26 (block 0x7F 7) := by decide

theorem witness_FinPadsToByteBoundary : (block 0x7FFFFFFF 31).fault = false ∧ (block 0x7FFFFFFF 31).fill.toNat ≤ 32 ∧
    (block 0xFFFFFFFF 32).fill.toNat ≤ 32 ∧ (block 0xFFFFFFFF 32).fill.toNat % 8 = 0 := by decide

theorem witness_StartEmptiesAccumulator : (block 0xDEADBEEF 32).fault = false ∧ (dead 1 (block 3 2)).fault = true := by decide

theorem witness_DrainMovesCompleteBytes : (block 0xDEADBEEF 32).fault = false := by decide

/-- V-E4 and V-E5, and V-E2 with no marker. -/
theorem witness_EndMarksPadsAndDrains : (withMarker 0x1FFFFFF 25 (block 0x7F 7)).fault = false ∧
    (withMarker 0x1FFFFFF 25 (block 0x7F 7)).fill.toNat ≤ 32 ∧ MarkerFits (withMarker 0x1FFFFFF 25 (block 0x7F 7)) ∧
    ¬ MarkerFits (withMarker 0x3FFFFFF 26 (block 0x7F 7)) ∧ MarkerFits (block 7 3) := by decide

/-- V-E3: a byte is appended; S1: none is. -/
theorem witness_EndLeavesEmptyAccumulator :
    (∃ t, exec .endRun (withMarker 7 3 (block 0xA 4)) = .next t ∧ t.fault = false ∧ t.out ≠ []) ∧
    (DeadZero (block 0 0) ∧ wellFormedMarker false 0 0 = true ∧
      ∃ t, exec .endRun (block 0 0) = .next t ∧ t.fault = false) :=
  ⟨⟨_, rfl, by decide, by decide⟩, by decide, by decide, _, rfl, by decide⟩

theorem witness_FillBetweenCommands :
    (appends .drain = true ∧ ∃ t, exec .drain (block 0x7FFFFFFF 31) = .next t ∧ t.fault = false) ∧
    (∃ t, execAll (.start :: runInput.map .push) runState = .next t ∧ t.fault = false) :=
  ⟨⟨by decide, _, rfl, by decide⟩, _, rfl, by decide⟩

theorem witness_RunOutputIsPackedStream : RunPremises runState runInput ∧ ∃ t, Succeeded runState t runInput :=
  ⟨runState_premises, runState_succeeds⟩
theorem witness_RunOutputLength : runState.fault = false ∧ RunPremises runState runInput ∧
    ∃ t, Succeeded runState t runInput := ⟨by decide, runState_premises, runState_succeeds⟩
theorem witness_RunEndsEmpty : RunPremises runState runInput ∧ ∃ t, Succeeded runState t runInput :=
  ⟨runState_premises, runState_succeeds⟩

/-- 25 is the largest safe length; P4: a length of 31 after two bits overflows. -/
theorem witness_SafeLengthsNeverOverflow : runState.fault = false ∧ SafeLengths runState runInput ∧
    (tblRead runState 0x42).len.toNat = 25 ∧
    ∃ t u, execAll (.start :: [0xE4, 0xE4].map .push) (withEntry 2 0x5A5A5A5A 31 runState) = .next t ∧ t.fault = false ∧
      exec (.push 2) t = .next u ∧ u.fault = true :=
  ⟨by decide, runState_safe, by decide, _, _, rfl, by decide, rfl, by decide⟩

/-- The same configuration and two different accumulators. -/
theorem witness_RunIsPureFunction : SameConfiguration runState { runState with acc := 0x7F, fill := 7 } ∧
    runState.fault = false ∧ { runState with acc := 0x7F, fill := 7 }.fault = false ∧
    (∃ t, execAll (compress runInput) runState = .next t) ∧
    (∃ t, execAll (compress runInput) { runState with acc := 0x7F, fill := 7 } = .next t) :=
  ⟨⟨rfl, rfl, rfl, rfl⟩, by decide, by decide, ⟨_, rfl⟩, ⟨_, rfl⟩⟩

theorem witness_FinerCommandsGiveSameRun : (∃ t, execAll (compress runInput) runState = .next t) ∧
    ∃ u, execAll (finerCommands runInput) runState = .next u := ⟨⟨_, rfl⟩, _, rfl⟩

theorem witness_NextAllDeliversDrainedBytes :
    (block 0xDEADBEEF 32).fault = false ∧ (block 0xDEADBEEF 32).fill.toNat ≤ 32 := by decide

theorem witness_EmptyRunAppendsNothing : State.reset.fault = false ∧ State.reset.tmPresent = false := by decide

theorem witness_ResetClearsBlock : fetch (presenting [.rst] (dead 1 (block 3 2))) = some .rst := by decide

theorem witness_StepRunsDecodedCommand : fetch (presenting [.command 0x3200000000DB] State.reset) =
    some (.command 0x3200000000DB) ∧ decode 0x3200000000DB = .command (.push 0xDB) := by decide

/-- A presented word, and nothing presented. -/
theorem witness_IndexAdvancesByOne : (fetch (presenting [.command 0] State.reset) ≠ none ∧
    ∃ t, step (presenting [.command 0] State.reset) = .next t) ∧
    (fetch State.reset = none ∧ ∃ t, step State.reset = .next t) := ⟨⟨by decide, _, rfl⟩, by decide, _, rfl⟩

/-- Two states that differ in what the block does not read. -/
theorem witness_StepIsTotalFunction : (block 0xDEADBEEF 32).fill.toNat ≤ 32 ∧
    SameBlock (block 0xDEADBEEF 32) { block 0xDEADBEEF 32 with out := [1], pos := 7 } ∧
    SameConfiguration (block 0xDEADBEEF 32) { block 0xDEADBEEF 32 with out := [1], pos := 7 } :=
  ⟨by decide, by decide, rfl, rfl, rfl, rfl⟩

theorem witness_PresentedWordsRunInOrder :
    (presenting [.command 0x300000000000, .command 0x3200000000E4] runState).inputs.drop 0 =
      [Instr.start, .push 0xE4].map (fun i => HostInput.command (encode i)) ∧
    ∃ t, execAll [.start, .push 0xE4] (presenting [.command 0x300000000000, .command 0x3200000000E4] runState) = .next t :=
  ⟨by decide, _, rfl⟩

theorem witness_ConfigurationReadOnlyOutputAppendOnly :
    (presenting [.command 0x310000000000] (block 0xDEADBEEF 32)).fill.toNat ≤ 32 ∧
    ∃ t, step (presenting [.command 0x310000000000] (block 0xDEADBEEF 32)) = .next t ∧ t.out ≠ [] :=
  ⟨by decide, _, rfl, by decide⟩

/-- A word at a faulted block, RST, and a word that faults. -/
theorem witness_FaultIsStickyUntilReset :
    (fetch (presenting [.command 0] (dead 1 (block 3 2))) ≠ some .rst ∧
      ∃ t, step (presenting [.command 0] (dead 1 (block 3 2))) = .next t) ∧
    (fetch (presenting [.rst] (dead 1 (block 3 2))) = some .rst ∧
      ∃ t, step (presenting [.rst] (dead 1 (block 3 2))) = .next t) ∧
    ∃ t, step (presenting [.command 0] (block 3 2)) = .next t ∧ t.fault = true :=
  ⟨⟨by decide, _, rfl⟩, ⟨by decide, _, rfl⟩, _, rfl, by decide⟩

/-- At FILL 32 and at FILL 0. -/
theorem witness_StepKeepsInvariant : Inv (block 0xFFFFFFFF 32) ∧ Inv (block 0 0) ∧
    ∃ t, step ((block 0xFFFFFFFF 32).withFetchWord 48 0x310000000000) = .next t :=
  ⟨block_inv (by decide), block_inv (by decide), _, rfl⟩

theorem witness_DeadBitsStayZero : (∃ t, exec .start (block 0x8000 8) = .next t) ∧
    (block 0x7F 7).fill.toNat ≤ 32 ∧ DeadZero (block 0x7F 7) ∧ writesWellFormed (block 0x7F 7) (.write 0x1FFFFFF 25) = true ∧
    ∃ t, exec (.write 0x1FFFFFF 25) (block 0x7F 7) = .next t := ⟨⟨_, rfl⟩, by decide, by decide, by decide, _, rfl⟩

/-- W12 presented to the block, with the table of reset, every entry (0, 0). -/
theorem witness_StepKeepsDeadBitsZero :
    Inv (presenting [.command 0x101901FFFFFF] (block 0x7F 7)) ∧
    CodesWellFormed (presenting [.command 0x101901FFFFFF] (block 0x7F 7)) ∧
    DeadZero (presenting [.command 0x101901FFFFFF] (block 0x7F 7)) ∧
    ∃ t, step (presenting [.command 0x101901FFFFFF] (block 0x7F 7)) = .next t :=
  ⟨⟨by decide, by decide, by decide, by decide, by decide⟩,
    ⟨by simp [presenting, block, State.reset, wellFormedTable, TblEntry.wellFormed, wellFormedCode], by decide, by decide⟩,
    by decide, _, rfl⟩

/-- M2: the stray bit 8 at FILL 1. -/
theorem witness_DeadBitsUnobservable : (block 0 1).fill.toNat ≤ 32 ∧ SameUpToDead (block 0 1) (block 0x100 1) ∧
    (∃ t, stepWord 0x220000000000 (block 0 1) = .next t) ∧ ∃ t, stepWord 0x220000000000 (block 0x100 1) = .next t :=
  ⟨by decide, ⟨by decide, rfl⟩, ⟨_, rfl⟩, _, rfl⟩

end Sys2Proof.Tests
end

/-! SUPPORT. The one shape of every command (40_accumulator.md R81, 60_exceptions.md R124): a write phase, which alone can raise, then a
take phase and one response. The rules about the two phases, about the word that runs them and about two runs side by side, from which
the statements about steps, reset and invariants follow. -/

namespace Sys2Proof.Proofs

open Sys2Proof Sys2Proof.Machine Sys2Proof.Safety

/-! ### The shape of a command -/

/-- What a command writes into the accumulator before it takes anything out; none where that raises `AccumulatorOverflow` (R120). -/
def writePhase : Instr → State → Option State
  | .write v n, s => writeBits v n s
  | .enc b, s | .push b, s => encBits b s
  | .term, s => termBits s
  | .fin, s => padBits s
  | .endRun, s => (termBits s).bind padBits
  | .readb, s | .boff, s | .next, s | .start, s | .drain, s => some s

/-- `s` after the extraction of READB (R84): unchanged where fewer than 8 bits are queued. -/
def byteTaken (s : State) : State :=
  { s with
    acc := if s.fill.toNat < 8 then s.acc else s.acc &&& mask (s.fill.toNat - 8)
    fill := if s.fill.toNat < 8 then s.fill else BitVec.ofNat 6 (s.fill.toNat - 8) }

/-- What a command takes out of the accumulator once its writes are made: one byte, every complete byte, everything, or nothing. -/
def takePhase : Instr → State → State
  | .readb, u | .next, u => byteTaken u
  | .drain, u | .push _, u | .endRun, u => drained u
  | .start, u => { u with acc := 0, fill := 0 }
  | .write _ _, u | .boff, u | .enc _, u | .term, u | .fin, u => u

/-- The end of a command that does not raise: its take phase on the state `u` after its writes, and its response (R73). -/
def finish (i : Instr) (u : State) : State :=
  respond (okResponse u (u.fill.toNat / 8) i) (takePhase i u)

/-- The state a command leads to. -/
def execResult (i : Instr) (s : State) : State :=
  command s (settle s (writePhase i s) (finish i))

/-- The state a word leads to. -/
def wordResult (w : CmdWord) (s : State) : State :=
  match decode w with
  | .command i => execResult i s
  | .illegal _ => illegalCommand s

theorem readByteRespond_eq (s : State) : readByteRespond s = finish .readb s := by
  by_cases h : s.fill.toNat < 8
  · simp [readByteRespond, readByte_few h, finish, takePhase, byteTaken, okResponse, h, respOk]
  · simp [readByteRespond, readByte_ready (Nat.le_of_not_lt h), finish, takePhase, byteTaken, okResponse, h, respData]

/-- Every command has the shape of `execResult`, in every state. -/
theorem exec_eq (i : Instr) (s : State) : exec i s = .next (execResult i s) := by
  have hdrain : drainRespond = finish .drain := funext drainRespond_eq
  cases i with
  | write | boff | enc | term | fin | start => rfl
  | readb | next => exact congrArg (fun t => Host.Outcome.next (command s t)) (readByteRespond_eq s)
  | drain => exact congrArg (fun t => Host.Outcome.next (command s t)) (drainRespond_eq s)
  | push b =>
    simp only [exec, execPush, hdrain]
    rfl
  | endRun =>
    simp only [exec, execEnd, hdrain]
    rfl

theorem stepWord_eq (w : CmdWord) (s : State) : stepWord w s = .next (wordResult w s) := by
  unfold stepWord wordResult
  cases decode w with
  | command i => exact exec_eq i s
  | illegal _ => rfl

/-! ### What a write phase can do -/

theorem writeBits_eq_some {v : Word} {n : Len} {s u : State} (h : writeBits v n s = some u) :
    Fits n s ∧ u = written v n s := by
  by_cases hf : Fits n s
  · rw [writeBits_fits hf, Option.some.injEq] at h
    exact ⟨hf, h.symm⟩
  · rw [writeBits_overflows hf] at h
    cases h

theorem padBits_ite (s : State) :
    padBits s = if s.fill.toNat % 8 ≠ 0 then writeBits 0 (BitVec.ofNat 6 (8 - s.fill.toNat % 8)) s else some s := rfl

theorem termBits_ite (s : State) : termBits s = if s.tmPresent then writeBits s.tmCode s.tmLen s else some s := by
  unfold termBits markerRead
  cases s.tmPresent <;> rfl

theorem wellFormedCode_zero (n : Len) : wellFormedCode 0 n = true := by
  simp [wellFormedCode]

section
variable {P : State → Prop}

theorem padBits_induct {s t : State} (h : padBits s = some t) (start : P s)
    (write : ∀ n, Fits n s → P (written 0 n s)) : P t := by
  rw [padBits_ite] at h
  split at h
  next =>
    obtain ⟨hf, rfl⟩ := writeBits_eq_some h
    exact write _ hf
  next =>
    cases h
    exact start

theorem termBits_induct {s t : State} (h : termBits s = some t) (start : P s)
    (write : s.tmPresent = true → Fits s.tmLen s → P (written s.tmCode s.tmLen s)) : P t := by
  rw [termBits_ite] at h
  split at h
  next hp =>
    obtain ⟨hf, rfl⟩ := writeBits_eq_some h
    exact write hp hf
  next =>
    cases h
    exact start

/-- What holds before a write phase and is kept by every write that fits holds after it. The codes written are well formed where those
of the command are (R22). -/
theorem writePhase_induct {i : Instr} {s t : State} (h : writePhase i s = some t) (start : P s)
    (write : ∀ v n u, (writesWellFormed s i = true → wellFormedCode v n = true) → Fits n u → P u → P (written v n u)) :
    P t := by
  have pad : ∀ {u}, padBits u = some t → P u → P t := fun hp hu =>
    padBits_induct hp hu fun n hf => write 0 n _ (fun _ => wellFormedCode_zero n) hf hu
  cases i with
  | write v n =>
    obtain ⟨hf, rfl⟩ := writeBits_eq_some h
    exact write v n s id hf start
  | enc | push =>
    obtain ⟨hf, rfl⟩ := writeBits_eq_some h
    exact write _ _ s id hf start
  | term =>
    exact termBits_induct h start fun hp hf =>
      write _ _ s (fun hw => by simpa [writesWellFormed, wellFormedMarker, hp] using hw) hf start
  | fin => exact pad h start
  | endRun =>
    obtain ⟨u, hu, ht⟩ := Option.bind_eq_some_iff.mp h
    refine pad ht (termBits_induct hu start fun hp hf => ?_)
    exact write _ _ s (fun hw => by simpa [writesWellFormed, wellFormedMarker, hp] using hw) hf start
  | readb | boff | next | start | drain =>
    cases h
    exact start

end

theorem writePhase_frame {i : Instr} {s u : State} (h : writePhase i s = some u) :
    u = { s with acc := u.acc, fill := u.fill } :=
  writePhase_induct (P := fun u => u = { s with acc := u.acc, fill := u.fill }) h rfl fun v n u _ _ hu => by
    rw [hu]
    rfl

theorem fill_le_of_writePhase {i : Instr} {s u : State} (h : writePhase i s = some u) (hs : s.fill.toNat ≤ 32) :
    u.fill.toNat ≤ 32 :=
  writePhase_induct (P := fun u => u.fill.toNat ≤ 32) h hs fun _ _ _ _ hf _ => (written_fill hf).trans_le hf.2

theorem deadZero_of_writePhase {i : Instr} {s u : State} (h : writePhase i s = some u)
    (hw : writesWellFormed s i = true) (hs : DeadZero s) : DeadZero u :=
  writePhase_induct (P := DeadZero) h hs fun _ _ _ hc hf hu => deadZero_written hf (hc hw) hu

/-! ### What a take phase can do -/

theorem takePhase_frame (i : Instr) (u : State) :
    takePhase i u = { u with acc := (takePhase i u).acc, fill := (takePhase i u).fill, out := (takePhase i u).out } := by
  cases i <;> rfl

/-- What a take phase appends to OUT: the complete bytes at the commands that drain, nothing at the others (R45, R104). -/
def appendedBytes (i : Instr) (u : State) : List Byte :=
  if appends i then drainedBytes u.acc u.fill.toNat else []

theorem takePhase_out (i : Instr) (u : State) : (takePhase i u).out = u.out ++ appendedBytes i u := by
  cases i with
  | drain | push | endRun => rfl
  | write | readb | boff | enc | term | fin | next | start => exact (List.append_nil _).symm

theorem length_appendedBytes_le (i : Instr) (u : State) : (appendedBytes i u).length ≤ u.fill.toNat / 8 := by
  unfold appendedBytes
  split
  · exact (length_drainedBytes _ _).le
  · exact Nat.zero_le _

theorem byteTaken_fill (u : State) :
    (byteTaken u).fill.toNat = if u.fill.toNat < 8 then u.fill.toNat else u.fill.toNat - 8 := by
  have := u.fill.isLt
  unfold byteTaken
  split
  · rfl
  · exact toNat_ofNat_fill (by omega)

theorem takePhase_fill_le (i : Instr) (u : State) : (takePhase i u).fill.toNat ≤ u.fill.toNat := by
  have hbyte : (byteTaken u).fill.toNat ≤ u.fill.toNat := by
    rw [byteTaken_fill]
    split <;> omega
  have hdrain : (drained u).fill.toNat ≤ u.fill.toNat := by
    rw [drained_fill]
    exact Nat.mod_le _ _
  cases i with
  | readb | next => exact hbyte
  | drain | push | endRun => exact hdrain
  | start => exact Nat.zero_le _
  | write | boff | enc | term | fin => exact le_rfl

theorem deadZero_byteTaken {u : State} (hf : u.fill.toNat ≤ 32) (hd : DeadZero u) : DeadZero (byteTaken u) := by
  unfold DeadZero
  rw [byteTaken_fill]
  unfold byteTaken
  split
  · exact hd
  · exact and_mask_lt _ (by omega)

theorem deadZero_of_acc_zero {u : State} (h : u.acc = 0) : DeadZero u := by
  simp [DeadZero, h]

theorem deadZero_takePhase {u : State} (i : Instr) (hf : u.fill.toNat ≤ 32) (hd : DeadZero u) :
    DeadZero (takePhase i u) := by
  cases i with
  | readb | next => exact deadZero_byteTaken hf hd
  | drain | push | endRun => exact deadZero_drained hd
  | start => exact deadZero_of_acc_zero rfl
  | write | boff | enc | term | fin => exact hd

/-- A command that completes writes ACC, FILL and OUT at most and adds its one response (R42, R72). -/
theorem finish_frame {i : Instr} {s u : State} (h : writePhase i s = some u) :
    finish i u =
      { s with
        acc := (finish i u).acc
        fill := (finish i u).fill
        out := s.out ++ appendedBytes i u
        resps := s.resps ++ [okResponse u (u.fill.toNat / 8) i] } := by
  have hu := writePhase_frame h
  have ho : (takePhase i u).out = s.out ++ appendedBytes i u := by
    rw [takePhase_out, show u.out = s.out by rw [hu]]
  unfold finish
  rw [← ho, takePhase_frame i u, hu]
  rfl

/-! ### What a word and a step can lead to -/

/-- What a command or a word presented in the state `s` can lead to; `run` says which command may complete there. -/
inductive Outcome (run : Instr → Prop) (s : State) : State → Prop
  /-- Ignored at a faulted block (R125). -/
  | ignored (dead : s.fault = true) : Outcome run s (ignore s)
  /-- Fault entry (R124), `AccumulatorOverflow` or `IllegalCommand`. -/
  | raised (c : BitVec 2) (alive : s.fault = false) (cause : c = 1 ∨ c = 2) : Outcome run s (raise c s)
  /-- The command `i` completes, its write phase leading to `u`. -/
  | completed (i : Instr) (u : State) (alive : s.fault = false) (runs : run i) (writes : writePhase i s = some u) :
      Outcome run s (finish i u)

theorem execResult_outcome {run : Instr → Prop} {i : Instr} (s : State) (hi : run i) : Outcome run s (execResult i s) := by
  unfold execResult
  cases hf : s.fault with
  | true =>
    rw [command_faulted hf]
    exact .ignored hf
  | false =>
    rw [command_alive hf]
    cases hw : writePhase i s with
    | none => exact .raised _ hf (.inl rfl)
    | some u => exact .completed i u hf hi hw

theorem exec_outcome {i : Instr} {s t : State} (h : exec i s = .next t) : Outcome (· = i) s t := by
  cases (exec_eq i s).symm.trans h
  exact execResult_outcome s rfl

theorem wordResult_outcome (w : CmdWord) (s : State) : Outcome (decode w = .command ·) s (wordResult w s) := by
  unfold wordResult
  cases hd : decode w with
  | command i => exact execResult_outcome s rfl
  | illegal why =>
    unfold illegalCommand
    cases hf : s.fault with
    | true =>
      rw [command_faulted hf]
      exact .ignored hf
    | false =>
      rw [command_alive hf]
      exact .raised _ hf (.inr rfl)

theorem step_idle {s : State} (h : fetch s = none) : step s = .next s := by
  simp [step, h]

theorem step_rst {s : State} (h : fetch s = some .rst) : step s = .next (applyReset (advance s)) := by
  simp [step, h]

theorem step_command {s : State} {w : CmdWord} (h : fetch s = some (.command w)) :
    step s = .next (wordResult w (advance s)) := by
  simp [step, h, stepWord_eq]

/-- What a step can lead to (R31, R138, R139). -/
inductive StepOutcome (s : State) : State → Prop
  | idle (nothing : fetch s = none) : StepOutcome s s
  | reset (rst : fetch s = some .rst) : StepOutcome s (applyReset (advance s))
  | word (w : CmdWord) (t : State) (presented : fetch s = some (.command w))
      (outcome : Outcome (decode w = .command ·) (advance s) t) : StepOutcome s t

/-- The state every step leads to. -/
theorem step_total (s : State) : ∃ t, step s = .next t ∧ StepOutcome s t := by
  cases hf : fetch s with
  | none => exact ⟨_, step_idle hf, .idle hf⟩
  | some x =>
    cases x with
    | rst => exact ⟨_, step_rst hf, .reset hf⟩
    | command w => exact ⟨_, step_command hf, .word w _ hf (wordResult_outcome w _)⟩

theorem step_outcome {s t : State} (h : step s = .next t) : StepOutcome s t := by
  obtain ⟨t', ht', ho⟩ := step_total s
  cases ht'.symm.trans h
  exact ho

section
variable {run : Instr → Prop} {s t : State}

/-- No word writes the configuration, the host's sequence or the index (R42, R31). -/
theorem Outcome.frame (h : Outcome run s t) : SameConfiguration s t ∧ t.inputs = s.inputs ∧ t.pos = s.pos := by
  cases h with
  | ignored => exact ⟨⟨rfl, rfl, rfl, rfl⟩, rfl, rfl⟩
  | raised => exact ⟨⟨rfl, rfl, rfl, rfl⟩, rfl, rfl⟩
  | completed i u _ _ hw =>
    rw [finish_frame hw]
    exact ⟨⟨rfl, rfl, rfl, rfl⟩, rfl, rfl⟩

/-- Every word appends at most 4 bytes and returns one response (R72, R104). -/
theorem Outcome.appends_and_responds (h : Outcome run s t) (hs : s.fill.toNat ≤ 32) :
    ∃ (bytes : List Byte) (r : Resp), t.out = s.out ++ bytes ∧ bytes.length ≤ 4 ∧ t.resps = s.resps ++ [r] := by
  cases h with
  | ignored => exact ⟨[], _, (List.append_nil _).symm, Nat.zero_le _, rfl⟩
  | raised => exact ⟨[], _, (List.append_nil _).symm, Nat.zero_le _, rfl⟩
  | completed i u _ _ hw =>
    rw [finish_frame hw]
    have hu := fill_le_of_writePhase hw hs
    have hlen := length_appendedBytes_le i u
    exact ⟨_, _, rfl, by omega, rfl⟩

/-! ### The invariant -/

theorem respLegal_respDead {c : BitVec 2} (h0 : c ≠ 0) (h3 : c ≠ 3) : RespLegal (respDead c) := by
  revert c
  decide

theorem respLegal_respRaised {c : BitVec 2} (h : c = 1 ∨ c = 2) : RespLegal (respRaised c) := by
  rcases h with rfl | rfl <;> decide

/-- A command that completes answers OK, so its response is legal whatever `DATA` it carries. -/
theorem respLegal_okResponse (s : State) (k : Nat) (i : Instr) : RespLegal (okResponse s k i) := by
  have hdata : ∀ d, RespLegal ⟨0, true, d⟩ := fun d => ⟨by simp, by simp, by simp⟩
  have hnone : RespLegal ⟨0, false, 0⟩ := by decide
  cases i with
  | readb | next =>
    simp only [okResponse]
    split
    · exact hnone
    · exact hdata _
  | boff | drain | push | endRun => exact hdata _
  | write | enc | term | fin | start => exact hnone

theorem respLegal_append {rs : List Resp} {r : Resp} (hs : ∀ r ∈ rs, RespLegal r) (hr : RespLegal r) :
    ∀ r' ∈ rs ++ [r], RespLegal r' := by
  intro r' h
  rcases List.mem_append.mp h with h | h
  · exact hs r' h
  · rw [List.mem_singleton.mp h]
    exact hr

theorem inv_ignore (h : Inv s) (dead : s.fault = true) : Inv (ignore s) :=
  { h with resps_legal := respLegal_append h.resps_legal (respLegal_respDead (h.fault_iff.mp dead) h.cause_ne) }

theorem inv_raise {c : BitVec 2} (h : Inv s) (hc : c = 1 ∨ c = 2) : Inv (raise c s) where
  fill_le := h.fill_le
  fault_iff := by rcases hc with rfl | rfl <;> simp
  cause_ne := by rcases hc with rfl | rfl <;> simp
  resps_legal := respLegal_append h.resps_legal (respLegal_respRaised hc)
  pos_le := h.pos_le

theorem inv_finish {i : Instr} {u : State} (h : Inv s) (hw : writePhase i s = some u) : Inv (finish i u) := by
  have hfill : (finish i u).fill.toNat ≤ 32 := (takePhase_fill_le i u).trans (fill_le_of_writePhase hw h.fill_le)
  rw [finish_frame hw]
  exact { h with fill_le := hfill, resps_legal := respLegal_append h.resps_legal (respLegal_okResponse _ _ i) }

theorem Outcome.inv (h : Outcome run s t) (hs : Inv s) : Inv t := by
  cases h with
  | ignored dead => exact inv_ignore hs dead
  | raised c _ hc => exact inv_raise hs hc
  | completed i u _ _ hw => exact inv_finish hs hw

theorem inv_advance {x : HostInput} (h : Inv s) (hx : fetch s = some x) : Inv (advance s) :=
  { h with pos_le := (List.getElem?_eq_some_iff.mp hx).1 }

theorem inv_applyReset (h : Inv s) : Inv (applyReset s) :=
  { h with fill_le := by simp, fault_iff := by simp, cause_ne := by simp }

/-! ### Dead bits -/

theorem Outcome.deadZero (h : Outcome run s t) (hs : s.fill.toNat ≤ 32) (hd : DeadZero s)
    (hw : ∀ i, run i → writesWellFormed s i = true) : DeadZero t := by
  cases h with
  | ignored => exact hd
  | raised => exact hd
  | completed i u _ hi hu =>
    exact deadZero_takePhase i (fill_le_of_writePhase hu hs) (deadZero_of_writePhase hu (hw i hi) hd)

theorem codesWellFormed_of_frame (h : CodesWellFormed s) (hc : SameConfiguration s t) (hi : t.inputs = s.inputs) :
    CodesWellFormed t := by
  obtain ⟨htbl, hp, hcode, hlen⟩ := hc
  exact ⟨htbl ▸ h.table, hp ▸ hcode ▸ hlen ▸ h.marker, hi ▸ h.inputs⟩

theorem tblRead_wellFormed (h : wellFormedTable s.tbl = true) (b : Byte) : (tblRead s b).wellFormed = true :=
  Vector.all_eq_true.mp h b.toNat b.isLt

/-- Where the host keeps its codes well formed, a command it presents writes a well-formed code (R145). -/
theorem writesWellFormed_of_codes {w : CmdWord} {i : Instr} (h : CodesWellFormed s)
    (hf : fetch s = some (.command w)) (hd : decode w = .command i) : writesWellFormed s i = true := by
  have hin : i.wellFormedOperand = true := by
    simpa [inputWellFormed, hd] using h.inputs _ (List.mem_of_getElem? hf)
  cases i with
  | write v n => exact hin
  | enc b | push b => exact tblRead_wellFormed h.table b
  | term | endRun => exact h.marker
  | readb | boff | fin | next | start | drain => rfl

end

/-! ### The statements about steps, reset and invariants -/

/-- Settles O47, from the outcomes of a word and of a step. -/
theorem stepKeepsInvariant : Obligations.StepKeepsInvariant := by
  intro s t hs h
  cases step_outcome h with
  | idle => exact hs
  | reset rst => exact inv_applyReset (inv_advance hs rst)
  | word w _ hf ho => exact ho.inv (inv_advance hs hf)

/-- Settles O49: the codes a presented word writes are well formed, and the configuration and the sequence are kept. -/
theorem stepKeepsDeadBitsZero : Obligations.StepKeepsDeadBitsZero := by
  intro s t hs hc hd h
  cases step_outcome h with
  | idle => exact ⟨hc, hd⟩
  | reset => exact ⟨codesWellFormed_of_frame hc ⟨rfl, rfl, rfl, rfl⟩ rfl, deadZero_of_acc_zero rfl⟩
  | word w _ hf ho =>
    have hca : CodesWellFormed (advance s) := codesWellFormed_of_frame hc ⟨rfl, rfl, rfl, rfl⟩ rfl
    obtain ⟨hconfig, hinputs, -⟩ := ho.frame
    refine ⟨codesWellFormed_of_frame hca hconfig hinputs, ho.deadZero hs.fill_le hd fun i hi => ?_⟩
    exact (writesWellFormed_of_codes hc hf hi : writesWellFormed s i = true)

/-- Settles O41: the step moves the index before the word runs, and no word writes it. -/
theorem indexAdvancesByOne : Obligations.IndexAdvancesByOne := by
  intro s t h
  cases step_outcome h with
  | idle nothing => exact ⟨fun hf => absurd nothing hf, fun _ => rfl⟩
  | reset rst => exact ⟨fun _ => rfl, fun hf => absurd (rst.symm.trans hf) (by simp)⟩
  | word w _ hw ho =>
    obtain ⟨-, -, hpos⟩ := ho.frame
    exact ⟨fun _ => hpos, fun hf => absurd (hw.symm.trans hf) (by simp)⟩

/-- Settles O45: of the outcomes of a step, only fault entry sets FAULT and only RST clears it. -/
theorem faultIsStickyUntilReset : Obligations.FaultIsStickyUntilReset := by
  refine ⟨rfl, fun s t h => ?_⟩
  cases step_outcome h with
  | idle nothing =>
    exact ⟨fun hs _ => ⟨hs, rfl, rfl, rfl, rfl⟩, fun hf => absurd (nothing.symm.trans hf) (by simp),
      fun hs ht => absurd (hs.symm.trans ht) (by decide)⟩
  | reset rst => exact ⟨fun _ hf => absurd rst hf, fun _ => ⟨rfl, rfl⟩, fun _ ht => absurd ht (by simp)⟩
  | word w _ hw ho =>
    have hrst : fetch s ≠ some .rst := by simp [hw]
    cases ho with
    | ignored dead =>
      exact ⟨fun _ _ => ⟨dead, rfl, rfl, rfl, rfl⟩, fun hf => absurd hf hrst,
        fun hs => absurd (hs.symm.trans dead) (by decide)⟩
    | raised c alive hc =>
      exact ⟨fun hs => absurd (alive.symm.trans hs) (by decide), fun hf => absurd hf hrst, fun _ _ => ⟨c, hc, rfl⟩⟩
    | completed i u alive _ hu =>
      refine ⟨fun hs => absurd (alive.symm.trans hs) (by decide), fun hf => absurd hf hrst, fun _ ht => ?_⟩
      rw [finish_frame hu] at ht
      exact absurd (alive.symm.trans ht) (by decide)

/-- Settles O48: START empties ACC, and every outcome of a command with a well-formed code keeps the dead bits zero. -/
theorem deadBitsStayZero : Obligations.DeadBitsStayZero := by
  refine ⟨fun s t hs h => ?_, fun s => deadZero_of_acc_zero rfl, fun i s t hs hd hw h => ?_⟩
  · have ht : t = finish .start s := by
      cases (exec_eq .start s).symm.trans h
      exact command_alive hs
    rw [ht]
    exact deadZero_of_acc_zero rfl
  · exact (exec_outcome h).deadZero hs hd fun j hj => hj ▸ hw

/-- Settles O39: the step at RST is `applyReset` past the signal. -/
theorem resetClearsBlock : Obligations.ResetClearsBlock :=
  ⟨⟨rfl, rfl, rfl, rfl⟩, fun _ h => step_rst h⟩

/-- Settles O46: every clause is a closed fact about the state after reset. -/
theorem resetMeetsInvariant : Obligations.ResetMeetsInvariant := by
  refine ⟨⟨by decide, by decide, by decide, by decide, by decide⟩, by decide, ⟨?_, by decide, by decide⟩⟩
  simp [State.reset, wellFormedTable, TblEntry.wellFormed, wellFormedCode]

/-! ### Two runs side by side -/

/-- A relation between two states that agree in everything a word looks at, kept by each of the block's operations. -/
structure Congruence (R : State → State → Prop) : Prop where
  fill : ∀ {u u'}, R u u' → u'.fill = u.fill
  fault : ∀ {u u'}, R u u' → u'.fault = u.fault
  cause : ∀ {u u'}, R u u' → u'.cause = u.cause
  config : ∀ {u u'}, R u u' → SameConfiguration u u'
  response : ∀ {u u'}, R u u' → ∀ k i, okResponse u' k i = okResponse u k i
  write : ∀ {u u'}, R u u' → ∀ v n, Fits n u → R (written v n u) (written v n u')
  take : ∀ {u u'}, R u u' → ∀ i, R (takePhase i u) (takePhase i u')
  respond : ∀ {u u'}, R u u' → ∀ r, R (respond r u) (respond r u')
  setFault : ∀ {u u'}, R u u' → ∀ c,
    R { u with fault := true, cause := c } { u' with fault := true, cause := c }

theorem option_rel_bind {α β : Type} {R : α → α → Prop} {S : β → β → Prop} {f g : α → Option β} {a b : Option α}
    (h : Option.Rel R a b) (hfg : ∀ x y, R x y → Option.Rel S (f x) (g y)) : Option.Rel S (a.bind f) (b.bind g) := by
  cases h with
  | some h => exact hfg _ _ h
  | none => exact .none

namespace Congruence

variable {R : State → State → Prop} {s s' : State}

theorem raise (hR : Congruence R) (h : R s s') (c : BitVec 2) : R (raise c s) (raise c s') :=
  hR.respond (hR.setFault h c) _

theorem ignore (hR : Congruence R) (h : R s s') : R (ignore s) (ignore s') := by
  unfold Machine.ignore
  rw [hR.cause h]
  exact hR.respond h _

theorem command (hR : Congruence R) (h : R s s') {t t' : State} (ht : R t t') : R (command s t) (command s' t') := by
  unfold Machine.command
  rw [hR.fault h]
  split
  · exact hR.ignore h
  · exact ht

theorem writeBits (hR : Congruence R) (h : R s s') (v : Word) (n : Len) :
    Option.Rel R (writeBits v n s) (writeBits v n s') := by
  by_cases hf : Fits n s
  · have hf' : Fits n s' := by rwa [Fits, hR.fill h]
    rw [writeBits_fits hf, writeBits_fits hf']
    exact .some (hR.write h v n hf)
  · have hf' : ¬ Fits n s' := by rwa [Fits, hR.fill h]
    rw [writeBits_overflows hf, writeBits_overflows hf']
    exact .none

theorem encBits (hR : Congruence R) (h : R s s') (b : Byte) : Option.Rel R (encBits b s) (encBits b s') := by
  have hb : tblRead s' b = tblRead s b := congrArg (·.get b.toFin) (hR.config h).1
  unfold Machine.encBits
  rw [hb]
  exact hR.writeBits h _ _

theorem termBits (hR : Congruence R) (h : R s s') : Option.Rel R (termBits s) (termBits s') := by
  obtain ⟨-, hp, hc, hl⟩ := hR.config h
  rw [termBits_ite, termBits_ite, hp, hc, hl]
  split
  · exact hR.writeBits h _ _
  · exact .some h

theorem padBits (hR : Congruence R) (h : R s s') : Option.Rel R (padBits s) (padBits s') := by
  rw [padBits_ite, padBits_ite, hR.fill h]
  split
  · exact hR.writeBits h _ _
  · exact .some h

theorem writePhase (hR : Congruence R) (h : R s s') (i : Instr) : Option.Rel R (writePhase i s) (writePhase i s') := by
  cases i with
  | write v n => exact hR.writeBits h v n
  | enc b | push b => exact hR.encBits h b
  | term => exact hR.termBits h
  | fin => exact hR.padBits h
  | endRun => exact option_rel_bind (hR.termBits h) fun _ _ => hR.padBits
  | readb | boff | next | start | drain => exact .some h

theorem finish (hR : Congruence R) (h : R s s') (i : Instr) : R (finish i s) (finish i s') := by
  unfold Proofs.finish
  rw [hR.fill h, hR.response h]
  exact hR.respond (hR.take h i) _

theorem settle (hR : Congruence R) (h : R s s') {body body' : Option State} (hb : Option.Rel R body body') (i : Instr) :
    R (settle s body (Proofs.finish i)) (settle s' body' (Proofs.finish i)) := by
  cases hb with
  | none => exact hR.raise h _
  | some hu => exact hR.finish hu i

theorem execResult (hR : Congruence R) (h : R s s') (i : Instr) : R (execResult i s) (execResult i s') :=
  hR.command h (hR.settle h (hR.writePhase h i) i)

theorem wordResult (hR : Congruence R) (h : R s s') (w : CmdWord) : R (wordResult w s) (wordResult w s') := by
  unfold Proofs.wordResult
  cases decode w with
  | command i => exact hR.execResult h i
  | illegal why => exact hR.command h (hR.raise h _)

end Congruence

/-! ### States that differ in dead bits -/

/-- A write moves live bits to live places, so it cannot bring a dead bit to life (R35). -/
theorem live_shiftLeft_or {a b : Word} {f : Nat} (h : a &&& mask f = b &&& mask f) (v : Word) (n : Nat) :
    (a <<< n ||| v) &&& mask (f + n) = (b <<< n ||| v) &&& mask (f + n) := by
  apply BitVec.eq_of_getLsbD_eq
  intro k hk
  have hbit := congrArg (fun x => x.getLsbD (k - n)) h
  simp only [BitVec.getLsbD_and, getLsbD_mask, show k - n < 32 by omega, decide_true, Bool.true_and] at hbit
  simp only [BitVec.getLsbD_and, getLsbD_mask, BitVec.getLsbD_or, BitVec.getLsbD_shiftLeft, hk, decide_true,
    Bool.true_and]
  by_cases hn : k < n
  · simp [hn]
  by_cases hf : k < f + n
  · have hf' : k - n < f := by omega
    simp only [hf', decide_true, Bool.and_true] at hbit
    rw [hbit]
  · simp [hf]

/-- A byte among the live bits does not see the dead ones. -/
theorem byte_live {j f : Nat} (h : j + 8 ≤ f) (a : Word) : ((a &&& mask f) >>> j).setWidth 8 = (a >>> j).setWidth 8 := by
  apply BitVec.eq_of_getLsbD_eq
  intro i hi
  have hlive : j + i < f := by omega
  simp only [BitVec.getLsbD_setWidth, BitVec.getLsbD_ushiftRight, BitVec.getLsbD_and, getLsbD_mask, hlive, decide_true,
    Bool.and_true]
  by_cases h32 : j + i < 32
  · simp [h32]
  · simp [BitVec.getLsbD_of_ge a _ (Nat.le_of_not_lt h32)]

theorem byte_eq_of_live {a b : Word} {f : Nat} (h : a &&& mask f = b &&& mask f) {j : Nat} (hj : j + 8 ≤ f) :
    (a >>> j).setWidth 8 = (b >>> j).setWidth 8 := by
  rw [← byte_live hj a, h, byte_live hj b]

theorem drainedBytes_eq_of_live {a b : Word} {f : Nat} (h : a &&& mask f = b &&& mask f) :
    drainedBytes a f = drainedBytes b f := by
  apply List.map_congr_left
  intro k hk
  have hk' : k < f / 8 := List.mem_range.mp hk
  exact byte_eq_of_live h (by omega)

theorem live_of_le {a b : Word} {m f : Nat} (h : a &&& mask f = b &&& mask f) (hm : m ≤ f) :
    a &&& mask m = b &&& mask m := by
  rw [← mask_and_mask hm a, h, mask_and_mask hm b]

section
variable {s s' : State}

theorem sameUpToDead_written (h : SameUpToDead s s') {n : Len} (hf : Fits n s) (v : Word) :
    SameUpToDead (written v n s) (written v n s') := by
  obtain ⟨hlive, hs⟩ := h
  have hw : written v n s' = { written v n s with acc := (written v n s').acc } := by
    rw [hs]
    rfl
  refine ⟨?_, hw⟩
  rw [written_fill hf, hs]
  exact live_shiftLeft_or hlive v n.toNat

theorem sameUpToDead_byteTaken (h : SameUpToDead s s') : SameUpToDead (byteTaken s) (byteTaken s') := by
  obtain ⟨hlive, hs⟩ := h
  rw [hs]
  refine ⟨?_, rfl⟩
  rw [byteTaken_fill]
  unfold byteTaken
  split
  · exact hlive
  · exact congrArg (· &&& mask (s.fill.toNat - 8)) (live_of_le hlive (Nat.sub_le _ _))

theorem sameUpToDead_drained (h : SameUpToDead s s') : SameUpToDead (drained s) (drained s') := by
  obtain ⟨hlive, hs⟩ := h
  have hout := drainedBytes_eq_of_live hlive
  have hd : drained s' = { drained s with acc := (drained s').acc } := by
    rw [hs]
    simp only [drained, hout]
  refine ⟨?_, hd⟩
  rw [drained_fill, hs]
  simp only [drained, accDrained]
  split
  · exact live_of_le hlive (Nat.mod_le _ _)
  · rw [live_of_le hlive (Nat.mod_le _ 8)]

theorem sameUpToDead_takePhase (h : SameUpToDead s s') (i : Instr) : SameUpToDead (takePhase i s) (takePhase i s') := by
  cases i with
  | readb | next => exact sameUpToDead_byteTaken h
  | drain | push | endRun => exact sameUpToDead_drained h
  | start =>
    obtain ⟨-, hs⟩ := h
    rw [hs]
    exact ⟨rfl, rfl⟩
  | write | boff | enc | term | fin => exact h

theorem okResponse_of_sameUpToDead (h : SameUpToDead s s') (k : Nat) (i : Instr) :
    okResponse s' k i = okResponse s k i := by
  obtain ⟨hlive, hs⟩ := h
  rw [hs]
  cases i with
  | readb | next =>
    simp only [okResponse]
    split
    · rfl
    · rw [byte_eq_of_live hlive (by omega)]
  | write | boff | enc | term | fin | start | drain | push | endRun => rfl

end

theorem congruence_sameUpToDead : Congruence SameUpToDead where
  fill h := by rw [h.2]
  fault h := by rw [h.2]
  cause h := by rw [h.2]
  config h := by
    rw [h.2]
    exact ⟨rfl, rfl, rfl, rfl⟩
  response := okResponse_of_sameUpToDead
  write h v n hf := sameUpToDead_written h hf v
  take := sameUpToDead_takePhase
  respond h r := by
    obtain ⟨hlive, hs⟩ := h
    rw [hs]
    exact ⟨hlive, rfl⟩
  setFault h c := by
    obtain ⟨hlive, hs⟩ := h
    rw [hs]
    exact ⟨hlive, rfl⟩

/-- Settles O50: no operation of the block lets a dead bit be seen, so the two results again differ in dead bits at most. -/
theorem deadBitsUnobservable : Obligations.DeadBitsUnobservable := by
  intro w s s' t t' _ h ht ht'
  cases (stepWord_eq w s).symm.trans ht
  cases (stepWord_eq w s').symm.trans ht'
  have hr := congruence_sameUpToDead.wordResult h w
  have hs := hr.2
  exact ⟨hr, by rw [hs], by rw [hs]⟩

/-! ### States that differ in what only the host sees -/

/-- `u` and `u'`, reached from `s` and `s'`, have the same block and configuration, and OUT and the responses have grown alike. -/
structure GrownAlike (s s' u u' : State) : Prop where
  block : SameBlock u u'
  config : SameConfiguration u u'
  out : ∃ bytes, u.out = s.out ++ bytes ∧ u'.out = s'.out ++ bytes
  resps : ∃ answers, u.resps = s.resps ++ answers ∧ u'.resps = s'.resps ++ answers

theorem grownAlike_refl {s s' : State} (hb : SameBlock s s') (hc : SameConfiguration s s') : GrownAlike s s' s s' :=
  ⟨hb, hc, ⟨[], by simp⟩, ⟨[], by simp⟩⟩

section
variable {s s' u u' : State}

theorem grownAlike_takePhase (h : GrownAlike s s' u u') (i : Instr) :
    GrownAlike s s' (takePhase i u) (takePhase i u') := by
  obtain ⟨⟨ha, hf, hfault, hcause⟩, hc, ⟨bytes, ho, ho'⟩, hr⟩ := h
  have hacc : (takePhase i u').acc = (takePhase i u).acc := by
    cases i <;> simp only [takePhase, byteTaken, drained, ha, hf]
  have hfill : (takePhase i u').fill = (takePhase i u).fill := by
    cases i <;> simp only [takePhase, byteTaken, drained, hf]
  have hbytes : appendedBytes i u' = appendedBytes i u := by
    simp only [appendedBytes, ha, hf]
  have hout : (takePhase i u).out = s.out ++ (bytes ++ appendedBytes i u) := by
    rw [takePhase_out, ho, List.append_assoc]
  have hout' : (takePhase i u').out = s'.out ++ (bytes ++ appendedBytes i u) := by
    rw [takePhase_out, ho', hbytes, List.append_assoc]
  rw [takePhase_frame i u, takePhase_frame i u']
  exact ⟨⟨hacc, hfill, hfault, hcause⟩, hc, ⟨_, hout, hout'⟩, hr⟩

theorem okResponse_of_sameBlock (h : SameBlock u u') (k : Nat) (i : Instr) : okResponse u' k i = okResponse u k i := by
  obtain ⟨ha, hf, -, -⟩ := h
  cases i <;> simp only [okResponse, ha, hf]

end

theorem congruence_grownAlike (s s' : State) : Congruence (GrownAlike s s') where
  fill h := by
    obtain ⟨-, hf, -, -⟩ := h.block
    exact hf
  fault h := by
    obtain ⟨-, -, hfault, -⟩ := h.block
    exact hfault
  cause h := by
    obtain ⟨-, -, -, hcause⟩ := h.block
    exact hcause
  config h := h.config
  response h := okResponse_of_sameBlock h.block
  write h v n _ := by
    obtain ⟨ha, hf, hfault, hcause⟩ := h.block
    refine ⟨⟨?_, ?_, hfault, hcause⟩, h.config, h.out, h.resps⟩
    · simp only [written, ha]
    · simp only [written, hf]
  take := grownAlike_takePhase
  respond h r := by
    obtain ⟨answers, hr, hr'⟩ := h.resps
    exact ⟨h.block, h.config, h.out, answers ++ [r], by simp [hr], by simp [hr']⟩
  setFault h c := by
    obtain ⟨ha, hf, -, -⟩ := h.block
    exact ⟨⟨ha, hf, rfl, rfl⟩, h.config, h.out, h.resps⟩

/-- Settles O42: a word reads nothing but block and configuration, so what it appends and answers from `s` it appends and answers from
every state that agrees with `s` in these. -/
theorem stepIsTotalFunction : Obligations.StepIsTotalFunction := by
  refine ⟨fun s => (step_total s).imp fun _ h => h.1, fun w s hs => ?_⟩
  obtain ⟨bytes, r, hout, hlen, hresps⟩ := (wordResult_outcome w s).appends_and_responds hs
  refine ⟨_, bytes, r, stepWord_eq w s, hout, hlen, hresps, fun s' hb hc => ⟨_, stepWord_eq w s', ?_⟩⟩
  obtain ⟨hblock, -, ⟨bytes', ho, ho'⟩, answers, ha, ha'⟩ :=
    (congruence_grownAlike s s').wordResult (grownAlike_refl hb hc) w
  have hbytes : bytes' = bytes := List.append_cancel_left (ho.symm.trans hout)
  have hanswers : answers = [r] := List.append_cancel_left (ha.symm.trans hresps)
  exact ⟨hblock, hbytes ▸ ho', hanswers ▸ ha'⟩

/-! ### States that differ in the index -/

/-- `u'` is `u` with another index. -/
def Reindexed (p : Nat) (u u' : State) : Prop :=
  u' = { u with pos := p }

theorem congruence_reindexed (p : Nat) : Congruence (Reindexed p) where
  fill h := by rw [h]
  fault h := by rw [h]
  cause h := by rw [h]
  config h := by
    rw [h]
    exact ⟨rfl, rfl, rfl, rfl⟩
  response h k i := by
    rw [h]
    cases i <;> rfl
  write h v n _ := by
    rw [h]
    rfl
  take h i := by
    rw [h]
    cases i <;> rfl
  respond h r := by
    rw [h]
    rfl
  setFault h c := by
    rw [h]
    rfl

/-- A command does not look at the index (R31). -/
theorem exec_reindexed {i : Instr} {s t : State} (h : exec i s = .next t) (p : Nat) :
    exec i { s with pos := p } = .next { t with pos := p } := by
  cases (exec_eq i s).symm.trans h
  rw [exec_eq]
  exact congrArg _ ((congruence_reindexed p).execResult (s := s) rfl i)

/-- The decoder reads every command's word back (R70). -/
theorem decode_encode (i : Instr) : decode (encode i) = .command i := by
  cases i with
  | write v n => simp [encode, decode, formatW]
  | enc b | push b => simp [encode, decode, formatB, byteField_eq, vHighField_eq]
  | readb | boff | term | fin | next | start | drain | endRun => decide

/-- With the word of a command at the index, the step runs the command and moves the index past the word. -/
theorem step_encoded {i : Instr} {s t : State} {p : Nat} (hf : s.inputs[p]? = some (.command (encode i)))
    (h : exec i s = .next t) : step { s with pos := p } = .next { t with pos := p + 1 } := by
  rw [step_command (s := { s with pos := p }) hf, ← stepWord_eq]
  unfold stepWord
  rw [decode_encode]
  exact exec_reindexed h (p + 1)

/-- The command list of `PresentedWordsRunInOrder` from any index: what `execAll` does to `s`, the steps do beside the index. -/
theorem stepTimes_of_execAll (is : List Instr) : ∀ {s t : State} {p : Nat},
    s.inputs.drop p = is.map (fun i => HostInput.command (encode i)) → execAll is s = .next t →
    stepTimes is.length { s with pos := p } = .next { t with pos := p + is.length } := by
  induction is with
  | nil =>
    intro s t p _ h
    cases h
    rfl
  | cons i is ih =>
    intro s t p hwords h
    obtain ⟨u, hu⟩ := exec_next i s
    have hrest : execAll is u = .next t := by simpa only [execAll, hu] using h
    have hhead : s.inputs[p]? = some (.command (encode i)) := by
      rw [← List.head?_drop, hwords]
      rfl
    have htail : u.inputs.drop (p + 1) = is.map (fun i => HostInput.command (encode i)) := by
      obtain ⟨-, hinputs, -⟩ := (exec_outcome hu).frame
      rw [hinputs, ← List.tail_drop, hwords]
      rfl
    have hlen : p + (i :: is).length = p + 1 + is.length := by
      rw [List.length_cons]
      omega
    simp only [List.length_cons, stepTimes, step_encoded hhead hu]
    rw [← List.length_cons (a := i), hlen]
    exact ih htail hrest

/-- Settles O43, by induction over the command list from the index the state holds. -/
theorem presentedWordsRunInOrder : Obligations.PresentedWordsRunInOrder := fun is _ _ hwords h =>
  stepTimes_of_execAll is hwords h

end Sys2Proof.Proofs

/-! SUPPORT. The frames of commands and steps (20_memory.md R42, R45, R46): which of the outcomes of a command reach OUT, FAULT and CAUSE. -/

namespace Sys2Proof.Proofs

open Sys2Proof Sys2Proof.Machine Sys2Proof.Safety

/-! ### OUT -/

/-- Where OUT changes, the command that completed is one of those that append (R45). -/
theorem Outcome.out_eq_or_appends {run : Instr → Prop} {s t : State} (h : Outcome run s t) :
    t.out = s.out ∨ ∃ i, run i ∧ appends i = true := by
  cases h with
  | ignored | raised => exact .inl rfl
  | completed i u _ hi hw =>
    cases ha : appends i with
    | true => exact .inr ⟨i, hi, ha⟩
    | false =>
      left
      rw [finish_frame hw]
      simp [appendedBytes, ha]

/-! ### ACC and FILL -/

/-- BOFF only reads FILL (R86). -/
theorem exec_boff_acc_fill {s t : State} (h : exec .boff s = .next t) : t.acc = s.acc ∧ t.fill = s.fill := by
  cases exec_outcome h with
  | ignored | raised => exact ⟨rfl, rfl⟩
  | completed i u _ hi hw =>
    subst hi
    cases hw
    exact ⟨rfl, rfl⟩

/-! ### FAULT and CAUSE -/

/-- A command whose write phase cannot raise keeps FAULT and CAUSE (R120). -/
theorem exec_keeps_fault_cause {i : Instr} {s t u : State} (hw : writePhase i s = some u) (h : exec i s = .next t) :
    t.fault = s.fault ∧ t.cause = s.cause := by
  cases (exec_eq i s).symm.trans h
  unfold execResult
  rw [hw, settle_some]
  cases hf : s.fault with
  | true =>
    rw [command_faulted hf]
    exact ⟨hf, rfl⟩
  | false =>
    rw [command_alive hf, finish_frame hw]
    exact ⟨hf, rfl⟩

/-- CAUSE is written by fault entry alone, which an alive block takes (R25, R124). -/
theorem Outcome.fault_of_cause_ne {run : Instr → Prop} {s t : State} (h : Outcome run s t) (hc : t.cause ≠ s.cause) :
    s.fault = false ∧ t.fault = true := by
  cases h with
  | ignored => exact absurd rfl hc
  | raised c alive => exact ⟨alive, rfl⟩
  | completed i u _ _ hw =>
    rw [finish_frame hw] at hc
    exact absurd rfl hc

/-! ### The statements about what commands and steps leave unchanged -/

/-- Settles O14, from the outcomes of a command; the commands named for FAULT and CAUSE are those whose write phase cannot raise. -/
theorem commandFrames : Obligations.CommandFrames := by
  intro i s t h
  have ho := exec_outcome h
  obtain ⟨hconfig, hinputs, hpos⟩ := ho.frame
  refine ⟨hconfig, hinputs, hpos, fun ha => ?_, ?_, ?_, ?_, ho.fault_of_cause_ne⟩
  · rcases ho.out_eq_or_appends with hout | ⟨j, rfl, hj⟩
    · exact hout
    · exact absurd (hj.symm.trans ha) (by decide)
  · rintro rfl
    exact exec_boff_acc_fill h
  · rintro (rfl | rfl | rfl | rfl | rfl) <;> exact exec_keeps_fault_cause rfl h
  · rintro rfl hs
    exact exec_keeps_fault_cause (i := .fin) (padBits_eq hs) h

/-- Settles O44: of the outcomes of a step only a word's can reach OUT, and none reaches the configuration or the sequence. -/
theorem configurationReadOnlyOutputAppendOnly : Obligations.ConfigurationReadOnlyOutputAppendOnly := by
  intro s t hs h
  cases step_outcome h with
  | idle | reset => exact ⟨⟨rfl, rfl, rfl, rfl⟩, rfl, [], (List.append_nil _).symm, Nat.zero_le _, absurd rfl⟩
  | word w _ hw ho =>
    obtain ⟨hconfig, hinputs, -⟩ := ho.frame
    obtain ⟨bytes, _, hout, hlen, -⟩ := ho.appends_and_responds hs
    refine ⟨hconfig, hinputs, bytes, hout, hlen, fun hne => ?_⟩
    rcases ho.out_eq_or_appends with hsame | ⟨i, hi, ha⟩
    · exact absurd (List.append_right_eq_self.mp (hout.symm.trans hsame)) hne
    · exact ⟨w, i, hw, hi, ha⟩

end Sys2Proof.Proofs

/-! SUPPORT. The command word (30_encoding.md R66 to R71): the decoder by formats, the fields a legal word has, and the rows of the opcode
map that select it. From these follow the statements about encodings and illegal words. -/

namespace Sys2Proof.Proofs

open Sys2Proof Sys2Proof.Machine Sys2Proof.Safety

/-! ### The decoder, format by format -/

/-- The opcodes of format B (R67, R69). -/
def opcodesB : List (BitVec 8) := [0x20, 0x32]

/-- The opcodes of format Z (R67, R69). -/
def opcodesZ : List (BitVec 8) := [0x11, 0x12, 0x21, 0x22, 0x23, 0x30, 0x31, 0x33]

/-- The eleven opcodes (R69). -/
def opcodes : List (BitVec 8) := [0x10, 0x11, 0x12, 0x20, 0x21, 0x22, 0x23, 0x30, 0x31, 0x32, 0x33]

/-- What the decoder can make of a word: the reading of the one format its `OP` belongs to, or nothing where `OP` is not assigned. -/
inductive DecodedBy (w : CmdWord) : Decoded → Prop
  | formatW (op : opField w = 0x10) : DecodedBy w (formatW w .write)
  | formatB (build : Byte → Instr) (op : opField w ∈ opcodesB)
      (word : ∀ b, encode (build b) = assemble (opField w) 0 (b.setWidth 32)) : DecodedBy w (formatB w build)
  | formatZ (i : Instr) (op : opField w ∈ opcodesZ) (word : encode i = assemble (opField w) 0 0) :
      DecodedBy w (formatZ w i)
  | unassigned (op : opField w ∉ opcodes) : DecodedBy w (.illegal .opUnassigned)

theorem decodedBy_formatB {w : CmdWord} {build : Byte → Instr} {op : BitVec 8} (h : opField w = op)
    (hop : op ∈ opcodesB) (word : ∀ b, encode (build b) = assemble op 0 (b.setWidth 32)) :
    DecodedBy w (formatB w build) := by
  subst h
  exact .formatB build hop word

theorem decodedBy_formatZ {w : CmdWord} {i : Instr} {op : BitVec 8} (h : opField w = op) (hop : op ∈ opcodesZ)
    (word : encode i = assemble op 0 0) : DecodedBy w (formatZ w i) := by
  subst h
  exact .formatZ i hop word

theorem decode_decodedBy (w : CmdWord) : DecodedBy w (decode w) := by
  unfold decode
  split
  next h => exact .formatW (opField_eq_ofNat h)
  next h => exact decodedBy_formatZ (opField_eq_ofNat h) (by decide) rfl
  next h => exact decodedBy_formatZ (opField_eq_ofNat h) (by decide) rfl
  next h => exact decodedBy_formatB (opField_eq_ofNat h) (by decide) fun _ => rfl
  next h => exact decodedBy_formatZ (opField_eq_ofNat h) (by decide) rfl
  next h => exact decodedBy_formatZ (opField_eq_ofNat h) (by decide) rfl
  next h => exact decodedBy_formatZ (opField_eq_ofNat h) (by decide) rfl
  next h => exact decodedBy_formatZ (opField_eq_ofNat h) (by decide) rfl
  next h => exact decodedBy_formatZ (opField_eq_ofNat h) (by decide) rfl
  next h => exact decodedBy_formatB (opField_eq_ofNat h) (by decide) fun _ => rfl
  next h => exact decodedBy_formatZ (opField_eq_ofNat h) (by decide) rfl
  next => exact .unassigned (by simp_all [opcodes, ← BitVec.toNat_inj])

/-- A word that decodes to a command is that command's word (R70). -/
theorem encode_of_decode {w : CmdWord} {i : Instr} (h : decode w = .command i) : encode i = w := by
  have hw := decode_decodedBy w
  rw [h] at hw
  generalize hd : Decoded.command i = d at hw
  cases hw with
  | formatW op =>
    obtain ⟨hr, rfl⟩ := formatW_command hd.symm
    exact (eq_assemble_iff.mpr ⟨op, hr, rfl, rfl⟩).symm
  | formatB build _ word =>
    obtain ⟨hr, hn, hv, rfl⟩ := formatB_command hd.symm
    rw [vHighField_eq] at hv
    rw [word, byteField_eq, setWidth_byte_of_high hv]
    exact (eq_assemble_iff.mpr ⟨rfl, hr, hn, rfl⟩).symm
  | formatZ j _ word =>
    obtain ⟨hr, hn, hv, rfl⟩ := formatZ_command hd.symm
    rw [word]
    exact (eq_assemble_iff.mpr ⟨rfl, hr, hn, hv⟩).symm
  | unassigned => cases hd

/-! ### The fields of a legal word -/

theorem exists_formatW_command {w : CmdWord} {build : Word → Len → Instr} :
    (∃ i, formatW w build = .command i) ↔ rsvField w = 0 := by
  constructor
  · rintro ⟨i, h⟩
    obtain ⟨hr, -⟩ := formatW_command h
    exact hr
  · intro hr
    exact ⟨build (vField w) (nField w), by simp [formatW, hr]⟩

theorem exists_formatB_command {w : CmdWord} {build : Byte → Instr} :
    (∃ i, formatB w build = .command i) ↔ rsvField w = 0 ∧ nField w = 0 ∧ vHighField w = 0 := by
  constructor
  · rintro ⟨i, h⟩
    obtain ⟨hr, hn, hv, -⟩ := formatB_command h
    exact ⟨hr, hn, hv⟩
  · rintro ⟨hr, hn, hv⟩
    exact ⟨build (byteField w), by simp [formatB, hr, hn, hv]⟩

theorem exists_formatZ_command {w : CmdWord} {j : Instr} :
    (∃ i, formatZ w j = .command i) ↔ rsvField w = 0 ∧ nField w = 0 ∧ vField w = 0 := by
  constructor
  · rintro ⟨i, h⟩
    obtain ⟨hr, hn, hv, -⟩ := formatZ_command h
    exact ⟨hr, hn, hv⟩
  · rintro ⟨hr, hn, hv⟩
    exact ⟨j, by simp [formatZ, hr, hn, hv]⟩

/-- The fields that the format of the word's `OP` wants zero are zero (R67, R71). -/
structure FieldsLegal (w : CmdWord) : Prop where
  rsv : rsvField w = 0
  n : opField w ≠ 0x10 → nField w = 0
  vHigh : opField w = 0x20 ∨ opField w = 0x32 → vHighField w = 0
  v : opField w ≠ 0x10 → opField w ≠ 0x20 → opField w ≠ 0x32 → vField w = 0

section
variable {w : CmdWord}

theorem not_fieldsLegal_iff : ¬ FieldsLegal w ↔
    rsvField w ≠ 0 ∨
    (opField w ≠ 0x10 ∧ nField w ≠ 0) ∨
    ((opField w = 0x20 ∨ opField w = 0x32) ∧ vHighField w ≠ 0) ∨
    (opField w ≠ 0x10 ∧ opField w ≠ 0x20 ∧ opField w ≠ 0x32 ∧ vField w ≠ 0) := by
  constructor
  · intro h
    by_contra hno
    push Not at hno
    obtain ⟨hr, hn, hvh, hv⟩ := hno
    exact h ⟨hr, hn, hvh, hv⟩
  · rintro (h | ⟨hw, h⟩ | ⟨hb, h⟩ | ⟨hw, h1, h2, h⟩) hl
    · exact h hl.rsv
    · exact h (hl.n hw)
    · exact h (hl.vHigh hb)
    · exact h (hl.v hw h1 h2)

theorem fieldsLegal_formatW (h : opField w = 0x10) : FieldsLegal w ↔ rsvField w = 0 := by
  refine ⟨fun hl => hl.rsv, fun hr => ⟨hr, fun hn => absurd h hn, fun hb => ?_, fun hn => absurd h hn⟩⟩
  rw [h] at hb
  exact absurd hb (by decide)

theorem fieldsLegal_formatB (h : opField w ∈ opcodesB) :
    FieldsLegal w ↔ rsvField w = 0 ∧ nField w = 0 ∧ vHighField w = 0 := by
  have hb : opField w = 0x20 ∨ opField w = 0x32 := by simpa [opcodesB] using h
  have hw : opField w ≠ 0x10 := (by decide : ∀ op ∈ opcodesB, op ≠ 0x10) _ h
  exact ⟨fun hl => ⟨hl.rsv, hl.n hw, hl.vHigh hb⟩,
    fun ⟨hr, hn, hv⟩ => ⟨hr, fun _ => hn, fun _ => hv, fun _ h1 h2 => (hb.elim h1 h2).elim⟩⟩

theorem fieldsLegal_formatZ (h : opField w ∈ opcodesZ) :
    FieldsLegal w ↔ rsvField w = 0 ∧ nField w = 0 ∧ vField w = 0 := by
  obtain ⟨hw, h1, h2⟩ := (by decide : ∀ op ∈ opcodesZ, op ≠ 0x10 ∧ op ≠ 0x20 ∧ op ≠ 0x32) _ h
  exact ⟨fun hl => ⟨hl.rsv, hl.n hw, hl.v hw h1 h2⟩,
    fun ⟨hr, hn, hv⟩ => ⟨hr, fun _ => hn, fun hb => (hb.elim h1 h2).elim, fun _ _ _ => hv⟩⟩

/-- A word decodes to a command exactly when its `OP` is assigned and its fields are legal (R71). -/
theorem exists_command_iff : (∃ i, decode w = .command i) ↔ opField w ∈ opcodes ∧ FieldsLegal w := by
  have hw := decode_decodedBy w
  generalize decode w = d at hw
  cases hw with
  | formatW op =>
    have hop : opField w ∈ opcodes := op ▸ by decide
    rw [exists_formatW_command, fieldsLegal_formatW op, and_iff_right hop]
  | formatB build op =>
    have hop : opField w ∈ opcodes := (by decide : ∀ op ∈ opcodesB, op ∈ opcodes) _ op
    rw [exists_formatB_command, fieldsLegal_formatB op, and_iff_right hop]
  | formatZ j op =>
    have hop : opField w ∈ opcodes := (by decide : ∀ op ∈ opcodesZ, op ∈ opcodes) _ op
    rw [exists_formatZ_command, fieldsLegal_formatZ op, and_iff_right hop]
  | unassigned op => simp [op]

theorem exists_illegal_iff : (∃ why, decode w = .illegal why) ↔ ¬ ∃ i, decode w = .command i := by
  cases decode w <;> simp

/-! ### The rows of the opcode map -/

/-- Each row of the opcode map is of one format: its pattern is an `OP` of that format, its mask the fields the format fixes (R67, R69). -/
theorem opcodeMap_formats : ∀ r ∈ opcodeMap,
    (r.mask = 0xFFC000000000 ∧ r.pattern = assemble 0x10 0 0) ∨
    (r.mask = 0xFFFFFFFFFF00 ∧ ∃ op ∈ opcodesB, r.pattern = assemble op 0 0) ∨
    (r.mask = 0xFFFFFFFFFFFF ∧ ∃ op ∈ opcodesZ, r.pattern = assemble op 0 0) := by
  decide

theorem opcodeMap_opField_inj : ∀ r ∈ opcodeMap, ∀ r' ∈ opcodeMap, opField r.pattern = opField r'.pattern → r = r' := by
  decide

theorem opcodeMap_mnemonic_inj : ∀ r ∈ opcodeMap, ∀ r' ∈ opcodeMap, r.mnemonic = r'.mnemonic → r = r' := by
  decide

theorem opcodeMap_opField_mem : ∀ r ∈ opcodeMap, opField r.pattern ∈ opcodes := by
  decide

/-- A row selects the words with its `OP` whose fields are legal (R69). -/
theorem selects_iff {r : OpRow} (hr : r ∈ opcodeMap) :
    r.selects w = true ↔ opField w = opField r.pattern ∧ FieldsLegal w := by
  rw [OpRow.selects, beq_iff_eq]
  rcases opcodeMap_formats r hr with ⟨hm, hp⟩ | ⟨hm, op, hop, hp⟩ | ⟨hm, op, hop, hp⟩
  · rw [hm, hp, selects_formatW, opField_assemble]
    exact and_congr_right fun h => (fieldsLegal_formatW h).symm
  · rw [hm, hp, selects_formatB, opField_assemble]
    exact and_congr_right fun h => (fieldsLegal_formatB (h ▸ hop)).symm
  · rw [hm, hp, selects_formatZ, opField_assemble]
    exact and_congr_right fun h => (fieldsLegal_formatZ (h ▸ hop)).symm

end

theorem encodedFields (i : Instr) : Laws.EncodedFields.Statement i := by
  cases i with
  | write v n => exact Laws.EncodedFields.write v n
  | readb => exact Laws.EncodedFields.readb
  | boff => exact Laws.EncodedFields.boff
  | enc b => exact Laws.EncodedFields.enc b
  | term => exact Laws.EncodedFields.term
  | fin => exact Laws.EncodedFields.fin
  | next => exact Laws.EncodedFields.next
  | start => exact Laws.EncodedFields.start
  | drain => exact Laws.EncodedFields.drain
  | push b => exact Laws.EncodedFields.push b
  | endRun => exact Laws.EncodedFields.endRun

/-- The row of the command a word decodes to has the word's `OP`. -/
theorem exists_row_of_decode {w : CmdWord} {i : Instr} (h : decode w = .command i) :
    ∃ r ∈ opcodeMap, r.mnemonic = i.mnemonic ∧ opField w = opField r.pattern := by
  obtain ⟨-, r, hr, hm, hop⟩ := encodedFields i
  rw [encode_of_decode h] at hop
  exact ⟨r, hr, hm, hop.symm⟩

theorem selects_iff_decode {r : OpRow} (hr : r ∈ opcodeMap) (w : CmdWord) :
    r.selects w = true ↔ ∃ i, decode w = .command i ∧ i.mnemonic = r.mnemonic := by
  rw [selects_iff hr]
  constructor
  · rintro ⟨hop, hl⟩
    obtain ⟨i, hi⟩ := exists_command_iff.mpr ⟨hop ▸ opcodeMap_opField_mem r hr, hl⟩
    obtain ⟨r', hr', hm, hop'⟩ := exists_row_of_decode hi
    cases opcodeMap_opField_inj r hr r' hr' (hop.symm.trans hop')
    exact ⟨i, hi, hm.symm⟩
  · rintro ⟨i, hi, him⟩
    obtain ⟨r', hr', hm, hop⟩ := exists_row_of_decode hi
    cases opcodeMap_mnemonic_inj r hr r' hr' (him.symm.trans hm.symm)
    exact ⟨hop, (exists_command_iff.mp ⟨i, hi⟩).2⟩

theorem legalWord_iff {w : CmdWord} : legalWord w = true ↔ ∃ i, decode w = .command i := by
  rw [legalWord, List.any_eq_true]
  constructor
  · rintro ⟨r, hr, hs⟩
    obtain ⟨i, hi, -⟩ := (selects_iff_decode hr w).mp hs
    exact ⟨i, hi⟩
  · rintro ⟨i, hi⟩
    obtain ⟨r, hr, hm, -⟩ := exists_row_of_decode hi
    exact ⟨r, hr, (selects_iff_decode hr w).mpr ⟨i, hi, hm.symm⟩⟩

theorem exists_illegal_iff_legalWord {w : CmdWord} : (∃ why, decode w = .illegal why) ↔ legalWord w = false := by
  rw [exists_illegal_iff, ← legalWord_iff, Bool.not_eq_true]

/-! ### What an alive block does with an illegal word, and with a WRITE that is too long -/

theorem stepWord_illegal {w : CmdWord} {why : IllegalReason} {s : State} (alive : s.fault = false)
    (h : decode w = .illegal why) : stepWord w s = .next (faulted 2 s) := by
  rw [stepWord, h, illegalCommand, command_alive alive]
  rfl

theorem exec_alive {s : State} (alive : s.fault = false) (i : Instr) :
    exec i s = .next (settle s (writePhase i s) (finish i)) := by
  rw [exec_eq, execResult, command_alive alive]

theorem exec_raises {i : Instr} {s : State} (alive : s.fault = false) (h : writePhase i s = none) :
    exec i s = .next (faulted 1 s) := by
  rw [exec_alive alive, h]
  rfl

/-! ### The statements about encodings -/

/-- Settles O2, command by command: an assembled word has the fields it was assembled from. -/
theorem decodeEncodeRoundTrip : Obligations.DecodeEncodeRoundTrip := decode_encode

/-- Settles O3, by the format the word was read in. -/
theorem decodedWordIsEncoding : Obligations.DecodedWordIsEncoding := fun _ _ => encode_of_decode

/-- Settles O5: a row selects a word by `OP` and legal fields, and both the `OP` and the mnemonic determine the row. -/
theorem opcodeMapDecides : Obligations.OpcodeMapDecides := by
  refine ⟨fun r hr => selects_iff_decode hr, fun r hr r' hr' w h h' => ?_, fun w v n h => ?_, fun w b h => ?_,
    fun w => exists_illegal_iff_legalWord⟩
  · obtain ⟨hop, -⟩ := (selects_iff hr).mp h
    obtain ⟨hop', -⟩ := (selects_iff hr').mp h'
    exact opcodeMap_opField_inj r hr r' hr' (hop.symm.trans hop')
  · rw [← encode_of_decode h]
    exact ⟨(vField_assemble _ _ _).symm, (nField_assemble _ _ _).symm⟩
  · have hw : ∃ op, w = assemble op 0 (b.setWidth 32) := by
      rcases h with h | h <;> exact ⟨_, (encode_of_decode h).symm⟩
    obtain ⟨op, rfl⟩ := hw
    change b = byteField _
    rw [byteField_eq, vField_assemble, setWidth_setWidth_byte]

/-- Settles O6: a word is illegal when its `OP` is not assigned or its fields are not legal. -/
theorem illegalEncodings : Obligations.IllegalEncodings := by
  refine ⟨fun w => ?_, fun w why s => stepWord_illegal, fun w hop hr => ?_, fun v n s alive hn => ?_⟩
  · rw [exists_illegal_iff, exists_command_iff]
    exact not_and_or.trans (or_congr_right not_fieldsLegal_iff)
  · have hw : w = encode (.write (vField w) (nField w)) := eq_assemble_iff.mpr ⟨hop, hr, rfl, rfl⟩
    exact (congrArg decode hw).trans (decode_encode _)
  · exact exec_raises alive (writeBits_overflows fun hf => absurd hf.1 (by omega))

/-- Settles O1: each word is a literal of the spec. -/
theorem specWordsDecode : Obligations.SpecWordsDecode := by
  unfold Obligations.SpecWordsDecode
  decide

/-- Settles O4, from the value of an assembled word. -/
theorem encodingFormulas : Obligations.EncodingFormulas := by
  have hb : ∀ b : Byte, (b.setWidth 32).toNat = b.toNat := fun b => BitVec.toNat_setWidth_of_le (by decide)
  refine ⟨fun v n => toNat_assemble 0x10 n v, fun b => ?_, fun b => ?_⟩
  · exact (toNat_assemble 0x20 0 (b.setWidth 32)).trans (by rw [hb]; rfl)
  · exact (toNat_assemble 0x32 0 (b.setWidth 32)).trans (by rw [hb]; rfl)

/-- Settles O40: the word at the index is decoded, and the command runs past it. -/
theorem stepRunsDecodedCommand : Obligations.StepRunsDecodedCommand := by
  intro s w i hf hd
  rw [step_command hf, ← stepWord_eq, stepWord, hd]
  rfl

end Sys2Proof.Proofs

/-! SUPPORT. The responses of a word (30_encoding.md R72, R73) and the pseudo-instruction that repeats NEXT (R76). -/

namespace Sys2Proof.Proofs

open Sys2Proof Sys2Proof.Machine Sys2Proof.Safety

/-! ### The layout of a response word -/

theorem getLsbD_respWord (r : Resp) (i : Nat) :
    (respWord r).getLsbD i =
      if i < 8 then r.data.getLsbD i else if i = 8 then r.valid else r.st.getLsbD (i - 9) := by
  simp only [respWord, BitVec.getLsbD_append, BitVec.getLsbD_ofBool]
  by_cases h : i < 8
  · simp [h]
  · by_cases h8 : i = 8
    · simp [h8]
    · have h1 : ¬ i - 8 < 1 := by omega
      have h2 : i - 8 - 1 = i - 9 := by omega
      simp only [h, h8, h1, h2, if_false]

theorem st_respWord (r : Resp) : (respWord r).extractLsb' 9 2 = r.st := by
  apply BitVec.eq_of_getLsbD_eq
  intro i hi
  have h1 : ¬ 9 + i < 8 := by omega
  have h2 : ¬ 9 + i = 8 := by omega
  have h3 : 9 + i - 9 = i := by omega
  simp only [BitVec.getLsbD_extractLsb', getLsbD_respWord, hi, h1, h2, h3, decide_true, Bool.true_and, if_false]

theorem valid_respWord (r : Resp) : (respWord r).getLsbD 8 = r.valid :=
  getLsbD_respWord r 8

theorem data_respWord (r : Resp) : (respWord r).extractLsb' 0 8 = r.data := by
  apply BitVec.eq_of_getLsbD_eq
  intro i hi
  simp only [BitVec.getLsbD_extractLsb', getLsbD_respWord, Nat.zero_add, hi, decide_true, Bool.true_and, if_true]

/-! ### The response of each outcome -/

theorem okResponse_st (s : State) (k : Nat) (i : Instr) : (okResponse s k i).st = 0 := by
  cases i with
  | readb | next =>
    simp only [okResponse]
    split <;> rfl
  | write | boff | enc | term | fin | start | drain | push | endRun => rfl

theorem finish_fault {i : Instr} {s u : State} (h : writePhase i s = some u) : (finish i u).fault = s.fault := by
  rw [finish_frame h]

/-- Every outcome is one response, whose `ST` says which outcome it was (R72, R73). -/
theorem Outcome.response {run : Instr → Prop} {s t : State} (h : Outcome run s t) :
    ∃ r : Resp, t.resps = s.resps ++ [r] ∧ r.st = (if s.fault then 2 else if t.fault then 1 else 0) ∧
      (r.valid = false → r.data = 0) := by
  cases h with
  | ignored dead => exact ⟨respDead s.cause, rfl, by rw [dead]; rfl, by simp [respDead]⟩
  | raised c alive => exact ⟨respRaised c, rfl, by rw [alive]; rfl, by simp [respRaised]⟩
  | completed i u alive _ hw =>
    obtain ⟨-, hdata, -⟩ := respLegal_okResponse u (u.fill.toNat / 8) i
    refine ⟨okResponse u (u.fill.toNat / 8) i, ?_, ?_, hdata⟩
    · rw [finish_frame hw]
    · rw [finish_fault hw, alive, okResponse_st]
      rfl

/-- The response of a command that completes, as a function of the state before its writes: only the bytes it counts depend on them. -/
theorem okResponse_of_writePhase {i : Instr} {s u : State} (h : writePhase i s = some u) :
    okResponse u (u.fill.toNat / 8) i = okResponse s (appendedBytes i u).length i := by
  have hlen : (drainedBytes u.acc u.fill.toNat).length = u.fill.toNat / 8 := length_drainedBytes _ _
  cases i with
  | readb | boff | next =>
    cases h
    rfl
  | drain | push | endRun => exact congrArg (fun k => (⟨0, true, BitVec.ofNat 8 k⟩ : Resp)) hlen.symm
  | write | enc | term | fin | start => rfl

/-- What a command that completes appends and answers (R73). -/
theorem finish_responds {i : Instr} {s u : State} (hs : s.fill.toNat ≤ 32) (h : writePhase i s = some u) :
    (finish i u).resps = s.resps ++ [okResponse s ((finish i u).out.length - s.out.length) i] ∧
      (finish i u).out.length - s.out.length ≤ Config.drainMax := by
  have hout : (finish i u).out.length - s.out.length = (appendedBytes i u).length := by
    rw [finish_frame h, List.length_append, Nat.add_sub_cancel_left]
  have hfill := fill_le_of_writePhase h hs
  have hlen := length_appendedBytes_le i u
  rw [hout, ← okResponse_of_writePhase h]
  refine ⟨?_, ?_⟩
  · rw [finish_frame h]
  · unfold Config.drainMax
    omega

/-- A faulted block ignores every command (R125). -/
theorem exec_dead {s : State} (dead : s.fault = true) (i : Instr) : exec i s = .next (ignore s) := by
  rw [exec_eq, execResult, command_faulted dead]

/-! ### NEXT repeated -/

/-- `s` after NEXT repeated until it returns nothing: drained, but with the bytes in the responses and not in OUT (R76). -/
def nextAll (s : State) : State :=
  { drained s with
    out := s.out
    resps := s.resps ++ (drainedBytes s.acc s.fill.toNat).map (fun b => ⟨0, true, b⟩) ++ [⟨0, false, 0⟩] }

theorem nextAll_few {s : State} (h : s.fill.toNat < 8) : finish .next s = nextAll s := by
  simp [finish, takePhase, byteTaken, okResponse, nextAll, drained, drainedBytes_few h, accDrained_few h,
    Nat.mod_eq_of_lt h, h, respond]

/-- The first of the repeated NEXT takes the oldest byte, and the others do to the rest what they would do to it alone. -/
theorem nextAll_ready {s : State} (h : 8 ≤ s.fill.toNat) : nextAll (finish .next s) = nextAll s := by
  have hn : ¬ s.fill.toNat < 8 := by omega
  have hlt := s.fill.isLt
  have hfill : (BitVec.ofNat 6 (s.fill.toNat - 8)).toNat = s.fill.toNat - 8 := toNat_ofNat_fill (by omega)
  have hmod : (s.fill.toNat - 8) % 8 = s.fill.toNat % 8 := by omega
  simp only [finish, takePhase, byteTaken, okResponse, nextAll, drained, respond, hn, if_false, hfill, hmod,
    drainedBytes_ready h, accDrained_ready h, List.map_cons, List.append_assoc, List.cons_append, List.nil_append]

theorem execAll_replicate_next (m : Nat) : ∀ {s : State}, s.fault = false → s.fill.toNat / 8 = m →
    execAll (List.replicate (m + 1) .next) s = .next (nextAll s) := by
  induction m with
  | zero =>
    intro s alive h
    have hnext : exec .next s = .next (nextAll s) :=
      (exec_alive alive .next).trans (congrArg _ (nextAll_few (by omega)))
    simp only [List.replicate, execAll, hnext]
  | succ m ih =>
    intro s alive h
    have hnext : exec .next s = .next (finish .next s) := exec_alive alive .next
    have hfill : (finish .next s).fill.toNat / 8 = m := by
      have := byteTaken_fill s
      change (byteTaken s).fill.toNat / 8 = m
      split at this <;> omega
    rw [List.replicate_succ, execAll, hnext]
    exact (ih ((finish_fault rfl).trans alive) hfill).trans (congrArg _ (nextAll_ready (by omega)))

/-! ### The statements about responses -/

/-- Settles O12, from the outcomes of a word and the layout of a response word. -/
theorem oneResponsePerCommand : Obligations.OneResponsePerCommand := by
  intro w s
  obtain ⟨r, hr, hst, hdata⟩ := (wordResult_outcome w s).response
  exact ⟨_, r, stepWord_eq w s, hr, hst, hdata, st_respWord r, valid_respWord r, data_respWord r⟩

/-- Settles O13: the command completes, raises or is ignored as FAULT and its write phase say, and an illegal word raises. -/
theorem responseContents : Obligations.ResponseContents := by
  intro i s t hs h
  cases hf : s.fault with
  | true =>
    cases (exec_dead hf i).symm.trans h
    exact ⟨nofun, nofun, fun _ => rfl, nofun⟩
  | false =>
    have hill : ∀ (w : CmdWord) (u : State), legalWord w = false → stepWord w s = .next u →
        u.cause = 2 ∧ u.resps = s.resps ++ [⟨1, true, 2⟩] := by
      intro w u hw hu
      obtain ⟨why, hwhy⟩ := exists_illegal_iff_legalWord.mpr hw
      cases (stepWord_illegal hf hwhy).symm.trans hu
      exact ⟨rfl, rfl⟩
    cases hw : writePhase i s with
    | none =>
      cases (exec_raises hf hw).symm.trans h
      exact ⟨nofun, fun _ _ => ⟨rfl, rfl⟩, nofun, fun _ => hill⟩
    | some u =>
      have ht : t = finish i u := by
        rw [exec_alive hf, hw] at h
        cases h
        rfl
      subst ht
      have halive : (finish i u).fault = false := (finish_fault hw).trans hf
      exact ⟨fun _ _ => finish_responds hs hw, fun _ hfault => absurd (halive.symm.trans hfault) (by decide), nofun,
        fun _ => hill⟩

/-- Settles O37, with as many NEXT as there are complete bytes and one more. -/
theorem nextAllDeliversDrainedBytes : Obligations.NextAllDeliversDrainedBytes := by
  intro s alive hs
  exact ⟨s.fill.toNat / 8 + 1, drainedBytes s.acc s.fill.toNat, nextAll s, finish .drain s, by omega, by omega,
    execAll_replicate_next _ alive rfl, exec_alive alive .drain, rfl, rfl, rfl, rfl, rfl, rfl, rfl⟩

end Sys2Proof.Proofs

/-! SUPPORT. The accumulator commands WRITE, READB and BOFF (40_accumulator.md R81 to R89): what each does to an alive block, what that is
for the abstract queue, and the queue over any sequence of them. -/

namespace Sys2Proof.Proofs

open Sys2Proof Sys2Proof.Machine Sys2Proof.Safety

/-! ### The two tests every command begins with -/

/-- A faulted block ignores every word, legal or not (R81, R125). -/
theorem stepWord_dead {s : State} (dead : s.fault = true) (w : CmdWord) :
    stepWord w s = .next (answered 2 true (s.cause.setWidth 8) s) := by
  unfold stepWord
  cases decode w with
  | command i => exact exec_dead dead i
  | illegal why => exact congrArg _ (command_faulted dead)

/-- The response of a command that completes, whatever FILL was: the count it holds is of the bytes that OUT grew by (R73). -/
theorem finish_resps {i : Instr} {s u : State} (h : writePhase i s = some u) :
    (finish i u).resps = s.resps ++ [okResponse s ((finish i u).out.length - s.out.length) i] := by
  have hout : (finish i u).out.length - s.out.length = (appendedBytes i u).length := by
    rw [finish_frame h, List.length_append, Nat.add_sub_cancel_left]
  rw [hout, ← okResponse_of_writePhase h, finish_frame h]

/-! ### What the accumulator commands do to an alive block -/

section
variable {s : State} {v : Word} {n : Len}

theorem exec_write_fits (alive : s.fault = false) (h : Fits n s) :
    exec (.write v n) s = .next (answered 0 false 0 (written v n s)) := by
  rw [exec_alive alive, writePhase, writeBits_fits h]
  rfl

theorem exec_write_overflows (alive : s.fault = false) (h : ¬ Fits n s) :
    exec (.write v n) s = .next (faulted 1 s) :=
  exec_raises alive (writeBits_overflows h)

/-- BOFF writes nothing and takes nothing; its response is the offset (R86). -/
theorem exec_boff (alive : s.fault = false) :
    exec .boff s = .next (answered 0 true (BitVec.ofNat 8 (s.fill.toNat % 8)) s) :=
  exec_alive alive .boff

/-- The byte that READB returns where 8 bits are queued (R84). -/
def oldestByte (s : State) : Byte :=
  (s.acc >>> (s.fill.toNat - 8)).setWidth 8

theorem byteTaken_ready (h : 8 ≤ s.fill.toNat) :
    byteTaken s = { s with acc := s.acc &&& mask (s.fill.toNat - 8), fill := BitVec.ofNat 6 (s.fill.toNat - 8) } := by
  simp only [byteTaken, Nat.not_lt.mpr h, if_false]

theorem exec_readb_few (alive : s.fault = false) (h : s.fill.toNat < 8) :
    exec .readb s = .next (answered 0 false 0 s) := by
  rw [exec_alive alive, writePhase, settle_some, ← readByteRespond_eq, readByteRespond, readByte_few h]
  rfl

theorem exec_readb_ready (alive : s.fault = false) (h : 8 ≤ s.fill.toNat) :
    exec .readb s = .next (answered 0 true (oldestByte s) (byteTaken s)) := by
  rw [exec_alive alive, writePhase, settle_some, ← readByteRespond_eq, readByteRespond, readByte_ready h,
    byteTaken_ready h]
  rfl

/-! ### What an extraction does to the queue -/

theorem byteTaken_fill_ready (h : 8 ≤ s.fill.toNat) : (byteTaken s).fill.toNat = s.fill.toNat - 8 := by
  rw [byteTaken_fill, if_neg (Nat.not_lt.mpr h)]

theorem liveBits_byteTaken (h : 8 ≤ s.fill.toNat) : liveBits s = byteBits (oldestByte s) ++ liveBits (byteTaken s) := by
  have hrest : liveBits (byteTaken s) = bitsMsbFirst (s.acc &&& mask (s.fill.toNat - 8)) (s.fill.toNat - 8) := by
    rw [liveBits, byteTaken_fill_ready h, byteTaken_ready h]
  rw [hrest]
  exact bitsMsbFirst_ready s.acc h

/-- An extraction masks ACC, so the dead bits are zero after it whatever they were before (R84). -/
theorem deadZero_byteTaken_ready (h : 8 ≤ s.fill.toNat) (hs : s.fill.toNat ≤ 32) : DeadZero (byteTaken s) := by
  unfold DeadZero
  rw [byteTaken_fill_ready h, byteTaken_ready h]
  exact and_mask_lt s.acc (by omega)

theorem length_liveBits (s : State) : (liveBits s).length = s.fill.toNat :=
  length_bitsMsbFirst s.acc s.fill.toNat

end

/-! ### The queue over a sequence of commands -/

/-- From `s` to `t`, `bits` went into the queue and the bytes of the valid responses came out, first in, first out (R89). -/
def QueueMoves (s t : State) (bits : List Bool) : Prop :=
  ∃ answers : List Resp, t.resps = s.resps ++ answers ∧
    liveBits s ++ bits = streamBits ((answers.filter (·.valid)).map (·.data)) ++ liveBits t

theorem QueueMoves.refl (s : State) : QueueMoves s s [] :=
  ⟨[], by simp, by simp⟩

theorem QueueMoves.trans {s t u : State} {w w' : List Bool} (h : QueueMoves s t w) (h' : QueueMoves t u w') :
    QueueMoves s u (w ++ w') := by
  obtain ⟨as, hresps, hbits⟩ := h
  obtain ⟨as', hresps', hbits'⟩ := h'
  refine ⟨as ++ as', by rw [hresps', hresps, List.append_assoc], ?_⟩
  rw [← List.append_assoc, hbits, List.append_assoc, hbits', List.filter_append, List.map_append, streamBits_append,
    List.append_assoc]

theorem queueMoves_write {s t : State} {v : Word} {n : Len} (alive : s.fault = false) (hw : wellFormedCode v n = true)
    (h : exec (.write v n) s = .next t) (ht : t.fault = false) : QueueMoves s t (bitsMsbFirst v n.toNat) := by
  by_cases hf : Fits n s
  · cases (exec_write_fits alive hf).symm.trans h
    exact ⟨[⟨0, false, 0⟩], rfl, (liveBits_written hf hw).symm⟩
  · cases (exec_write_overflows alive hf).symm.trans h
    cases ht

theorem queueMoves_readb {s t : State} (alive : s.fault = false) (h : exec .readb s = .next t) : QueueMoves s t [] := by
  by_cases hf : s.fill.toNat < 8
  · cases (exec_readb_few alive hf).symm.trans h
    exact ⟨[⟨0, false, 0⟩], rfl, List.append_nil _⟩
  · have h8 : 8 ≤ s.fill.toNat := Nat.le_of_not_lt hf
    cases (exec_readb_ready alive h8).symm.trans h
    refine ⟨[⟨0, true, oldestByte s⟩], rfl, ?_⟩
    rw [List.append_nil, liveBits_byteTaken h8]
    exact congrArg (· ++ liveBits (byteTaken s)) (List.append_nil _).symm

theorem execAll_cons (i : Instr) (is : List Instr) (s : State) : execAll (i :: is) s = execAll is (execResult i s) := by
  rw [execAll, exec_eq]

/-- No command takes FAULT back to 0 (R125, R126), so a sequence that ends alive was alive throughout. -/
theorem alive_of_execAll (is : List Instr) : ∀ {s t : State},
    execAll is s = .next t → t.fault = false → s.fault = false := by
  induction is with
  | nil =>
    intro s t h ht
    cases h
    exact ht
  | cons i is ih =>
    intro s t h ht
    rw [execAll_cons] at h
    have hu : (execResult i s).fault = false := ih h ht
    by_contra dead
    rw [Bool.not_eq_false] at dead
    rw [execResult, command_faulted dead, ignore_fault, dead] at hu
    cases hu

theorem queueMoves_execAll (is : List Instr) : ∀ {s t : State},
    (∀ i ∈ is, i = .readb ∨ ∃ v n, i = .write v n ∧ wellFormedCode v n = true) →
    execAll is s = .next t → t.fault = false → QueueMoves s t (is.flatMap writtenBits) := by
  induction is with
  | nil =>
    intro s t _ h _
    cases h
    exact .refl s
  | cons i is ih =>
    intro s t hall h ht
    obtain ⟨hi, hrest⟩ := List.forall_mem_cons.mp hall
    have alive : s.fault = false := alive_of_execAll _ h ht
    rw [execAll_cons] at h
    have hu : (execResult i s).fault = false := alive_of_execAll is h ht
    have hfirst : QueueMoves s (execResult i s) (writtenBits i) := by
      rcases hi with rfl | ⟨v, n, rfl, hw⟩
      · exact queueMoves_readb alive (exec_eq _ s)
      · exact queueMoves_write alive hw (exec_eq _ s) hu
    exact hfirst.trans (ih hrest h ht)

/-! ### The statements about the accumulator commands -/

/-- Settles O20, by induction over the sequence: every command of it moves bits through the queue in order. -/
theorem queueIsFirstInFirstOut : Obligations.QueueIsFirstInFirstOut :=
  fun is _ _ _ _ hall h ht => queueMoves_execAll is hall h ht

/-- Settles O7: the tests in their order, then the outcome of a command that neither was ignored nor raised. -/
theorem twoTestsComeFirst : Obligations.TwoTestsComeFirst := by
  intro w s
  refine ⟨fun dead => stepWord_dead dead w, fun alive hw => ?_, fun alive hw => ?_⟩
  · obtain ⟨why, hwhy⟩ := exists_illegal_iff_legalWord.mpr hw
    exact stepWord_illegal alive hwhy
  · obtain ⟨i, hi⟩ := legalWord_iff.mp hw
    refine ⟨i, hi, by rw [stepWord, hi], fun t h ht => ?_⟩
    cases exec_outcome h with
    | ignored dead => exact absurd (alive.symm.trans dead) (by decide)
    | raised => cases ht
    | completed j u _ hj hu =>
      subst hj
      exact finish_resps hu

/-- Settles O16, from the bits of ACC after a write that fits. -/
theorem writeBitByBit : Obligations.WriteBitByBit := by
  intro v n s t alive hf h k hk
  cases (exec_write_fits alive hf).symm.trans h
  refine (written_bit hk).trans ?_
  by_cases hn : k < n.toNat <;> simp [hn]

/-- Settles O19: each clause is the command's next state, and what a write or an extraction does to the queue. -/
theorem accumulatorCommandsActOnQueue : Obligations.AccumulatorCommandsActOnQueue := by
  intro s alive hs
  rw [length_liveBits]
  refine ⟨fun v n hw hf => ?_, fun v n hf => ?_, fun h8 => ?_, fun h8 => ?_, ?_⟩
  · exact ⟨_, exec_write_fits alive hf, liveBits_written hf hw, (written_fill (v := v) hf).trans_le hf.2,
      deadZero_written hf hw⟩
  · exact ⟨_, exec_write_overflows alive hf, rfl, hs, id⟩
  · exact ⟨_, oldestByte s, exec_readb_ready alive h8, rfl, liveBits_byteTaken h8, (takePhase_fill_le .readb s).trans hs,
      deadZero_byteTaken_ready h8 hs⟩
  · exact ⟨_, exec_readb_few alive h8, rfl, hs, id⟩
  · exact ⟨_, exec_boff alive, rfl, hs, id⟩

/-- Settles O15: the word is the command's encoding, and the two clauses are the two ends of a write. -/
theorem writeShiftsAndOrs : Obligations.WriteShiftsAndOrs := by
  intro v n s
  exact ⟨decode_encode (.write v n), fun alive hn hsum => exec_write_fits alive ⟨hn, hsum⟩,
    fun alive h => exec_write_overflows alive fun hf => by omega⟩

/-- Settles O17: the word is the command's encoding, and the two clauses are READB with few bits and with a byte queued. -/
theorem readbTakesOldestByte : Obligations.ReadbTakesOldestByte := by
  refine ⟨decode_encode .readb, fun s alive => ⟨exec_readb_few alive, fun h8 => ?_⟩⟩
  rw [exec_readb_ready alive h8, byteTaken_ready h8]
  rfl

/-- Settles O18: the word is the command's encoding, and BOFF neither writes nor takes. -/
theorem boffReturnsOffset : Obligations.BoffReturnsOffset :=
  ⟨decode_encode .boff, fun _ alive => exec_boff alive⟩

end Sys2Proof.Proofs

/-! SUPPORT. The encoder commands ENC, TERM, FIN and NEXT (41_encoder.md R92 to R96): what each does to an alive block, and the writes and
paddings that change nothing. -/

namespace Sys2Proof.Proofs

open Sys2Proof Sys2Proof.Machine Sys2Proof.Safety

/-! ### The command word with a byte operand -/

/-- Format B as R67 prints it: `OP`, then 32 zero bits, then the byte. -/
theorem append_byte_eq_assemble (op b : Byte) : op ++ 0#32 ++ b = assemble op 0 (b.setWidth 32) := by
  have hb : (b.setWidth 32).toNat = b.toNat := BitVec.toNat_setWidth_of_le (by decide)
  have hw : (op ++ 0#32 ++ b).toNat = op.toNat * 2 ^ 40 + b.toNat := by
    rw [BitVec.toNat_append, ← Nat.shiftLeft_add_eq_or_of_lt b.isLt, BitVec.toNat_append, BitVec.toNat_ofNat,
      Nat.zero_mod, Nat.or_zero, ← Nat.shiftLeft_add, Nat.shiftLeft_eq]
  apply BitVec.eq_of_toNat_eq
  simp [hw, toNat_assemble, hb]

section
variable {s : State}

/-! ### Writes and paddings that change nothing -/

/-- Writing no bits of the code 0 leaves the accumulator as it is (R92). -/
theorem written_zero (s : State) : written 0 0 s = s := by
  simp [written]

/-- At a byte boundary there is nothing to pad (R94). -/
theorem padded_aligned (h : s.fill.toNat % 8 = 0) : padded s = s := by
  simp [padded, h]

/-! ### What the encoder commands do to an alive block -/

theorem exec_enc_fits {b : Byte} (alive : s.fault = false) (h : Fits (tblRead s b).len s) :
    exec (.enc b) s = .next (answered 0 false 0 (written (tblRead s b).code (tblRead s b).len s)) := by
  rw [exec_alive alive, writePhase, encBits, writeBits_fits h]
  rfl

theorem exec_enc_overflows {b : Byte} (alive : s.fault = false) (h : ¬ Fits (tblRead s b).len s) :
    exec (.enc b) s = .next (faulted 1 s) :=
  exec_raises alive (writeBits_overflows h)

theorem exec_term_fits (alive : s.fault = false) (h : MarkerFits s) :
    exec .term s = .next (answered 0 false 0 (markerWritten s)) := by
  rw [exec_alive alive, writePhase, termBits_fits h]
  rfl

theorem exec_term_overflows (alive : s.fault = false) (h : ¬ MarkerFits s) : exec .term s = .next (faulted 1 s) :=
  exec_raises alive (termBits_overflows h)

theorem markerWritten_absent (h : s.tmPresent = false) : markerWritten s = s := by
  simp [markerWritten, h]

theorem markerWritten_present (h : s.tmPresent = true) : markerWritten s = written s.tmCode s.tmLen s := by
  simp [markerWritten, h]

/-- Padding fits at every FILL a run reaches, so FIN does not raise there (R95). -/
theorem exec_fin (alive : s.fault = false) (h : s.fill.toNat ≤ 32) :
    exec .fin s = .next (answered 0 false 0 (padded s)) := by
  rw [exec_alive alive, writePhase, padBits_eq h]
  rfl

/-- NEXT has the meaning of READB (R96). -/
theorem exec_next_eq_exec_readb (s : State) : exec .next s = exec .readb s := rfl

end

/-! ### The statements about the encoder commands -/

/-- Settles O23: FIN answers the padded state, whose FILL and queue the laws of padding give. -/
theorem finPadsToByteBoundary : Obligations.FinPadsToByteBoundary := by
  refine ⟨decode_encode .fin, fun s alive h => ?_⟩
  refine ⟨_, exec_fin alive h, rfl, alive, padded_fill h, fun h8 => ?_, liveBits_padded h⟩
  rw [padded_aligned h8]

/-- Settles O21: the word is the command's encoding, the clauses are the two ends of a write, and the entry (0, 0) fits and
writes nothing. -/
theorem encWritesTableEntry : Obligations.EncWritesTableEntry := by
  refine ⟨fun b => ?_, fun b s alive => ⟨exec_enc_fits alive, exec_enc_overflows alive, fun hentry hs => ?_⟩⟩
  · exact (congrArg decode (append_byte_eq_assemble 0x20 b)).trans (decode_encode (.enc b))
  · have hfits : Fits (tblRead s b).len s := by
      rw [hentry]
      exact ⟨by decide, hs⟩
    rw [exec_enc_fits alive hfits, hentry, written_zero]

/-- Settles O22, by whether a marker is configured and, if so, whether it fits. -/
theorem termWritesMarker : Obligations.TermWritesMarker := by
  refine ⟨decode_encode .term, fun s alive => ⟨fun absent => ?_, fun present hf => ?_, fun present hf => ?_⟩⟩
  · have hfits : MarkerFits s := fun present => absurd (absent.symm.trans present) (by decide)
    rw [exec_term_fits alive hfits, markerWritten_absent absent]
  · rw [exec_term_fits alive fun _ => hf, markerWritten_present present]
  · exact exec_term_overflows alive fun hfits => hf (hfits present)

/-- Settles O24: NEXT and READB have one meaning, and O17 says what READB does. -/
theorem nextReadsAsReadb : Obligations.NextReadsAsReadb := by
  obtain ⟨-, hreadb⟩ := readbTakesOldestByte
  refine ⟨decode_encode .next, fun s => ?_⟩
  rw [exec_next_eq_exec_readb]
  exact ⟨rfl, fun alive => (hreadb s alive).1, fun alive => (hreadb s alive).2⟩

end Sys2Proof.Proofs

/-! SUPPORT. The run commands START, DRAIN, PUSH and END (42_run.md R102 to R107): what each does to an alive block, what it does to OUT and
the queue together, and from that what a whole run appends, when it completes, and what it leaves behind (R111 to R117). -/

namespace Sys2Proof.Proofs

open Sys2Proof Sys2Proof.Machine Sys2Proof.Safety

/-! ### What the run commands do to an alive block -/

/-- `s` with an empty accumulator, as START leaves it (R102). -/
def started (s : State) : State :=
  { s with acc := 0, fill := 0 }

/-- `s` after the write and the drain of a PUSH that does not raise (R105). -/
def pushed (b : Byte) (s : State) : State :=
  drained (written (tblRead s b).code (tblRead s b).len s)

/-- `s` after the marker's write, the padding and the drain of an END that does not raise (R106). -/
def ended (s : State) : State :=
  drained (padded (markerWritten s))

section
variable {s t : State} {b : Byte}

theorem exec_start (alive : s.fault = false) : exec .start s = .next (answered 0 false 0 (started s)) :=
  exec_alive alive .start

theorem exec_drain (alive : s.fault = false) :
    exec .drain s = .next (answered 0 true (BitVec.ofNat 8 (s.fill.toNat / 8)) (drained s)) :=
  exec_alive alive .drain

theorem exec_push_fits (alive : s.fault = false) (h : Fits (tblRead s b).len s) :
    exec (.push b) s = .next
      (answered 0 true (BitVec.ofNat 8 ((s.fill.toNat + (tblRead s b).len.toNat) / 8)) (pushed b s)) := by
  rw [exec_alive alive, writePhase, encBits, writeBits_fits h, settle_some, ← written_fill (v := (tblRead s b).code) h]
  rfl

theorem exec_push_overflows (alive : s.fault = false) (h : ¬ Fits (tblRead s b).len s) :
    exec (.push b) s = .next (faulted 1 s) :=
  exec_raises alive (writeBits_overflows h)

theorem markerWritten_fill (h : MarkerFits s) : (markerWritten s).fill.toNat = s.fill.toNat + markerLength s := by
  unfold markerWritten markerLength
  split
  next present => exact written_fill (h present)
  next => rfl

theorem markerWritten_fill_le (hs : s.fill.toNat ≤ 32) (h : MarkerFits s) : (markerWritten s).fill.toNat ≤ 32 := by
  unfold markerWritten
  split
  next present => exact (written_fill (h present)).trans_le (h present).2
  next => exact hs

theorem exec_endRun_fits (alive : s.fault = false) (hs : s.fill.toNat ≤ 32) (h : MarkerFits s) :
    exec .endRun s = .next
      (answered 0 true (BitVec.ofNat 8 (((markerWritten s).fill.toNat + 7) / 8)) (ended s)) := by
  have hle := markerWritten_fill_le hs h
  have hcount : (padded (markerWritten s)).fill.toNat / 8 = ((markerWritten s).fill.toNat + 7) / 8 := by
    rw [padded_fill hle]
    exact Nat.mul_div_cancel_left _ (by decide)
  rw [exec_alive alive, writePhase, termBits_fits h, Option.bind_some, padBits_eq hle, settle_some, ← hcount]
  rfl

theorem exec_endRun_overflows (alive : s.fault = false) (h : ¬ MarkerFits s) :
    exec .endRun s = .next (faulted 1 s) :=
  exec_raises alive (by rw [writePhase, termBits_overflows h, Option.bind_none])

/-! ### A run command that did not fault -/

theorem fits_of_push (alive : s.fault = false) (h : exec (.push b) s = .next t) (ht : t.fault = false) :
    Fits (tblRead s b).len s := by
  by_contra hf
  cases (exec_push_overflows alive hf).symm.trans h
  cases ht

theorem markerFits_of_endRun (alive : s.fault = false) (h : exec .endRun s = .next t) (ht : t.fault = false) :
    MarkerFits s := by
  by_contra hf
  cases (exec_endRun_overflows alive hf).symm.trans h
  cases ht

theorem drained_fill_lt (s : State) : (drained s).fill.toNat < 8 := by
  rw [drained_fill]
  exact Nat.mod_lt _ (by decide)

theorem ended_fill (hs : s.fill.toNat ≤ 32) (h : MarkerFits s) : (ended s).fill = 0 := by
  apply BitVec.eq_of_toNat_eq
  rw [ended, drained_fill, padded_fill (markerWritten_fill_le hs h)]
  exact Nat.mul_mod_right 8 _

theorem acc_eq_zero_of_deadZero (h : DeadZero s) (hf : s.fill = 0) : s.acc = 0 := by
  apply BitVec.eq_of_toNat_eq
  have hlt : s.acc.toNat < 2 ^ (0 : Len).toNat := hf ▸ h
  exact Nat.lt_one_iff.mp hlt

/-- A drain that takes a byte masks ACC, so it leaves dead bits that are zero, whatever they were (R104). -/
theorem deadZero_drained_of_out_ne (h : (drained s).out ≠ s.out) : DeadZero (drained s) := by
  have h8 : ¬ s.fill.toNat < 8 := fun hf => h (by simp [drained, drainedBytes_few hf])
  have hacc : (drained s).acc = s.acc &&& mask (s.fill.toNat % 8) := if_neg h8
  unfold DeadZero
  rw [drained_fill, hacc]
  exact and_mask_lt _ (by omega)

theorem padded_markerWritten_out (s : State) : (padded (markerWritten s)).out = s.out := by
  unfold markerWritten
  split <;> rfl

end

/-! ### OUT and the queue together -/

/-- From `s` to `t`, `bits` were written and the oldest bits left for OUT byte by byte: the counts agree whatever the codes are, and
where they are well formed (`wf`) so do the bits themselves, and no dead bit is set (R88, R104, R111). -/
structure Packs (wf : Prop) (s t : State) (bits : List Bool) : Prop where
  config : SameConfiguration s t
  deadZero : wf → DeadZero s → DeadZero t
  out : ∃ bytes : List Byte, t.out = s.out ++ bytes ∧
    s.fill.toNat + bits.length = 8 * bytes.length + t.fill.toNat ∧
    (wf → liveBits s ++ bits = streamBits bytes ++ liveBits t)

theorem sameConfiguration_trans {s t u : State} (h : SameConfiguration s t) (h' : SameConfiguration t u) :
    SameConfiguration s u := by
  obtain ⟨htbl, hp, hc, hl⟩ := h
  obtain ⟨htbl', hp', hc', hl'⟩ := h'
  exact ⟨htbl'.trans htbl, hp'.trans hp, hc'.trans hc, hl'.trans hl⟩

section
variable {wf : Prop} {s t u : State} {w w' : List Bool}

theorem Packs.refl (wf : Prop) (s : State) : Packs wf s s [] :=
  ⟨⟨rfl, rfl, rfl, rfl⟩, fun _ => id, [], by simp, by simp, fun _ => by simp⟩

theorem Packs.trans (h : Packs wf s t w) (h' : Packs wf t u w') : Packs wf s u (w ++ w') := by
  obtain ⟨bytes, hout, hcount, hbits⟩ := h.out
  obtain ⟨bytes', hout', hcount', hbits'⟩ := h'.out
  refine ⟨sameConfiguration_trans h.config h'.config, fun hw => h'.deadZero hw ∘ h.deadZero hw, bytes ++ bytes', ?_, ?_,
    fun hw => ?_⟩
  · rw [hout', hout, List.append_assoc]
  · rw [List.length_append, List.length_append]
    omega
  · rw [← List.append_assoc, hbits hw, List.append_assoc, hbits' hw, streamBits_append, List.append_assoc]

/-- What only adds a response packs nothing. -/
theorem Packs.answered (h : Packs wf s t w) (st : BitVec 2) (valid : Bool) (data : Byte) :
    Packs wf s (answered st valid data t) w :=
  ⟨h.config, h.deadZero, h.out⟩

/-- A body that writes FILL and ACC alone packs the bits it writes. -/
theorem packs_of_bits (config : SameConfiguration s t) (out : t.out = s.out) (fill : s.fill.toNat + w.length = t.fill.toNat)
    (deadZero : wf → DeadZero s → DeadZero t) (bits : wf → liveBits t = liveBits s ++ w) : Packs wf s t w :=
  ⟨config, deadZero, [], by rw [out, List.append_nil], by rw [fill]; simp, fun hw => (bits hw).symm⟩

theorem packs_written {v : Word} {n : Len} (h : Fits n s) (hw : wf → wellFormedCode v n = true) :
    Packs wf s (written v n s) (bitsMsbFirst v n.toNat) :=
  packs_of_bits ⟨rfl, rfl, rfl, rfl⟩ rfl (by rw [length_bitsMsbFirst, written_fill h])
    (fun hwf => deadZero_written h (hw hwf)) (fun hwf => liveBits_written h (hw hwf))

theorem packs_markerWritten (h : MarkerFits s) (hw : wf → wellFormedMarker s.tmPresent s.tmCode s.tmLen = true) :
    Packs wf s (markerWritten s) (markerBits s) := by
  unfold markerWritten markerBits
  split
  next present => exact packs_written (h present) fun hwf => by simpa [wellFormedMarker, present] using hw hwf
  next => exact .refl wf s

theorem packs_padded (h : s.fill.toNat ≤ 32) :
    Packs wf s (padded s) (List.replicate ((8 - s.fill.toNat % 8) % 8) false) := by
  refine packs_of_bits ⟨rfl, rfl, rfl, rfl⟩ rfl ?_ (fun _ => deadZero_padded h) (fun _ => ?_)
  · rw [padded_fill h, List.length_replicate]
    omega
  · rw [liveBits_padded h, zeroPadded, length_liveBits]

theorem packs_drained (s : State) : Packs wf s (drained s) [] := by
  refine ⟨⟨rfl, rfl, rfl, rfl⟩, fun _ => deadZero_drained, drainedBytes s.acc s.fill.toNat, rfl, ?_, fun _ => ?_⟩
  · rw [length_drainedBytes, drained_fill, List.length_nil]
    omega
  · rw [List.append_nil]
    exact liveBits_drained s

theorem packs_pushed {b : Byte} (h : Fits (tblRead s b).len s) (hw : wf → (tblRead s b).wellFormed = true) :
    Packs wf s (pushed b s) (bitsMsbFirst (tblRead s b).code (tblRead s b).len.toNat) := by
  simpa [pushed] using (packs_written h hw).trans (packs_drained _)

/-- The bits END writes: the marker's, and the zeros up to the byte boundary (R106). -/
def endBits (s : State) : List Bool :=
  markerBits s ++ List.replicate ((8 - (s.fill.toNat + markerLength s) % 8) % 8) false

theorem packs_ended (hs : s.fill.toNat ≤ 32) (h : MarkerFits s)
    (hw : wf → wellFormedMarker s.tmPresent s.tmCode s.tmLen = true) : Packs wf s (ended s) (endBits s) := by
  have hpad := packs_padded (wf := wf) (markerWritten_fill_le hs h)
  rw [markerWritten_fill h] at hpad
  simpa [endBits, ended] using ((packs_markerWritten h hw).trans hpad).trans (packs_drained _)

end

/-! ### The PUSH commands of a run -/

section
variable {s t u : State}

theorem tblRead_of_config (h : SameConfiguration s u) (b : Byte) : tblRead u b = tblRead s b :=
  congrArg (·.get b.toFin) h.1

theorem dataBits_cons (s : State) (b : Byte) (bs : List Byte) :
    dataBits s (b :: bs) = bitsMsbFirst (tblRead s b).code (tblRead s b).len.toNat ++ dataBits s bs :=
  List.flatMap_cons

theorem markerBits_of_config (h : SameConfiguration s u) : markerBits u = markerBits s := by
  obtain ⟨-, hp, hc, hl⟩ := h
  simp only [markerBits, hp, hc, hl]

theorem length_dataBits (s : State) (bs : List Byte) : (dataBits s bs).length = dataLength s bs := by
  simp [dataBits, dataLength, List.length_flatMap]

theorem length_markerBits (s : State) : (markerBits s).length = markerLength s := by
  unfold markerBits markerLength
  split
  · exact length_bitsMsbFirst _ _
  · rfl

theorem execAll_cons_next {i : Instr} {is : List Instr} :
    execAll (i :: is) s = .next t ↔ ∃ u, exec i s = .next u ∧ execAll is u = .next t := by
  rw [execAll_cons, exec_eq]
  constructor
  · exact fun h => ⟨_, rfl, h⟩
  · rintro ⟨u, hu, h⟩
    cases hu
    exact h

theorem execAll_append_next {is js : List Instr} : ∀ {s : State},
    execAll (is ++ js) s = .next t ↔ ∃ u, execAll is s = .next u ∧ execAll js u = .next t := by
  induction is with
  | nil =>
    intro s
    constructor
    · exact fun h => ⟨s, rfl, h⟩
    · rintro ⟨u, hu, h⟩
      cases hu
      exact h
  | cons i is ih =>
    intro s
    rw [List.cons_append, execAll_cons, execAll_cons]
    exact ih

/-- PUSH commands that do not fault pack the codes of their bytes and leave less than a byte (R111, R114). -/
theorem pushes_pack {wf : Prop} (bs : List Byte) : ∀ {s t : State}, s.fill.toNat < 8 →
    (wf → ∀ b ∈ bs, (tblRead s b).wellFormed = true) → execAll (bs.map .push) s = .next t → t.fault = false →
    Packs wf s t (dataBits s bs) ∧ t.fill.toNat < 8 := by
  induction bs with
  | nil =>
    intro s t hs _ h _
    cases h
    exact ⟨.refl wf s, hs⟩
  | cons b bs ih =>
    intro s t hs hw h ht
    have alive := alive_of_execAll _ h ht
    obtain ⟨u, hu, hrest⟩ := execAll_cons_next.mp h
    have hfits := fits_of_push alive hu (alive_of_execAll _ hrest ht)
    cases (exec_push_fits alive hfits).symm.trans hu
    have hfirst := packs_pushed hfits fun hwf => hw hwf b List.mem_cons_self
    obtain ⟨hpack, hfill⟩ := ih (s := answered 0 true _ (pushed b s)) (drained_fill_lt _)
      (fun hwf c hc => hw hwf c (List.mem_cons_of_mem b hc)) hrest ht
    rw [dataBits_cons]
    exact ⟨(hfirst.answered 0 true _).trans hpack, hfill⟩

theorem execAll_start_next {is : List Instr} (alive : s.fault = false) :
    execAll (.start :: is) s = .next t ↔ execAll is (answered 0 false 0 (started s)) = .next t := by
  rw [execAll, exec_start alive]

/-- What START and PUSH commands without a fault have done (R111, R114). -/
theorem started_pushes_pack {wf : Prop} {bs : List Byte} (alive : s.fault = false)
    (hw : wf → ∀ b ∈ bs, (tblRead s b).wellFormed = true) (h : execAll (.start :: bs.map .push) s = .next t)
    (ht : t.fault = false) : Packs wf (started s) t (dataBits s bs) ∧ t.fill.toNat < 8 := by
  have hempty : (started s).fill.toNat < 8 := Nat.zero_lt_succ 7
  obtain ⟨hpack, hfill⟩ :=
    pushes_pack bs (s := answered 0 false 0 (started s)) hempty hw ((execAll_start_next alive).mp h) ht
  exact ⟨((Packs.refl wf (started s)).answered 0 false 0).trans hpack, hfill⟩

/-- Inside a run FILL is the number of bits written so far, mod 8 (R114). -/
theorem started_pushes_fill {bs : List Byte} (alive : s.fault = false)
    (h : execAll (.start :: bs.map .push) s = .next t) (ht : t.fault = false) :
    t.fill.toNat = dataLength s bs % 8 ∧ SameConfiguration s t := by
  obtain ⟨hpack, hfill⟩ := started_pushes_pack (wf := False) alive False.elim h ht
  obtain ⟨bytes, -, hcount, -⟩ := hpack.out
  have h0 : (started s).fill.toNat = 0 := rfl
  rw [length_dataBits, h0] at hcount
  exact ⟨by omega, hpack.config⟩

/-! ### A whole run -/

/-- The list a run executes, cut before its END. -/
theorem compress_next {bs : List Byte} :
    execAll (compress bs) s = .next t ↔ ∃ u, execAll (.start :: bs.map .push) s = .next u ∧ exec .endRun u = .next t := by
  have hsingle : ∀ u, execAll [.endRun] u = .next t ↔ exec .endRun u = .next t := fun u => by
    rw [execAll_cons, exec_eq]
    exact Iff.rfl
  rw [compress, ← List.cons_append, execAll_append_next]
  simp only [hsingle]

/-- A run that does not fault ends in an END whose marker fits. -/
theorem end_of_run {bs : List Byte} (h : Succeeded s t bs) :
    ∃ u, execAll (.start :: bs.map .push) s = .next u ∧ u.fault = false ∧ exec .endRun u = .next t ∧ MarkerFits u := by
  obtain ⟨hrun, ht⟩ := h
  obtain ⟨u, hu, hend⟩ := compress_next.mp hrun
  have alive : u.fault = false := alive_of_execAll [.endRun] (execAll_cons_next.mpr ⟨t, hend, rfl⟩) ht
  exact ⟨u, hu, alive, hend, markerFits_of_endRun alive hend ht⟩

/-- From the empty accumulator of START a run packs its codes, its marker and its padding, and nothing is left (R111, R112). -/
theorem run_packs {bs : List Byte} (alive : s.fault = false) (h : Succeeded s t bs) :
    Packs (RunPremises s bs) (started s) t (zeroPadded (dataBits s bs ++ markerBits s)) ∧ t.fill = 0 ∧
      ∃ d : Byte, t.resps.getLast? = some ⟨0, true, d⟩ := by
  obtain ⟨u, hu, aliveU, hend, hmarker⟩ := end_of_run h
  obtain ⟨hpack, hlt⟩ := started_pushes_pack (wf := RunPremises s bs) alive (fun hp => hp.entries) hu aliveU
  obtain ⟨hmod, hconfig⟩ := started_pushes_fill alive hu aliveU
  have hle : u.fill.toNat ≤ 32 := by omega
  have hwf : RunPremises s bs → wellFormedMarker u.tmPresent u.tmCode u.tmLen = true := by
    obtain ⟨-, hp, hc, hl⟩ := hconfig
    rw [hp, hc, hl]
    exact fun hp => hp.marker
  have hbits : zeroPadded (dataBits s bs ++ markerBits s) = dataBits s bs ++ endBits u := by
    have hlen := length_markerBits u
    rw [endBits, zeroPadded, List.length_append, length_dataBits, ← markerBits_of_config hconfig, hlen, hmod,
      Nat.mod_add_mod, List.append_assoc]
  cases (exec_endRun_fits aliveU hle hmarker).symm.trans hend
  rw [hbits]
  exact ⟨hpack.trans ((packs_ended hle hmarker hwf).answered _ _ _), ended_fill hle hmarker, _,
    List.getLast?_concat⟩

/-- The bytes of a run that did not fault. -/
theorem run_out {bs : List Byte} (alive : s.fault = false) (h : Succeeded s t bs) :
    ∃ bytes : List Byte, t.out = s.out ++ bytes ∧
      (zeroPadded (dataBits s bs ++ markerBits s)).length = 8 * bytes.length ∧
      (RunPremises s bs → streamBits bytes = zeroPadded (dataBits s bs ++ markerBits s)) := by
  obtain ⟨hpack, hfill, -⟩ := run_packs alive h
  obtain ⟨bytes, hout, hcount, hbits⟩ := hpack.out
  have hempty : liveBits t = [] := by rw [liveBits, hfill]; rfl
  have h0 : (started s).fill.toNat = 0 := rfl
  rw [hfill, h0] at hcount
  refine ⟨bytes, hout, by simpa using hcount, fun hp => ?_⟩
  have h := hbits hp
  rw [hempty, List.append_nil] at h
  exact h.symm

/-! ### Runs that cannot overflow -/

/-- With at most 7 bits left over, 25 more fit (R113). -/
theorem fits_of_safe {n : Len} (hs : s.fill.toNat < 8) (hn : n.toNat ≤ Config.safeLen) : Fits n s := by
  unfold Config.safeLen at hn
  exact ⟨by omega, by omega⟩

theorem safe_pushes_complete (bs : List Byte) : ∀ {s : State}, s.fault = false → s.fill.toNat < 8 →
    (∀ b ∈ bs, (tblRead s b).len.toNat ≤ Config.safeLen) →
    ∃ t, execAll (bs.map .push) s = .next t ∧ t.fault = false := by
  induction bs with
  | nil => exact fun alive _ _ => ⟨_, rfl, alive⟩
  | cons b bs ih =>
    intro s alive hs hlen
    obtain ⟨hb, hbs⟩ := List.forall_mem_cons.mp hlen
    obtain ⟨t, ht, aliveT⟩ :=
      ih (s := answered 0 true _ (pushed b s)) alive (drained_fill_lt _) hbs
    exact ⟨t, execAll_cons_next.mpr ⟨_, exec_push_fits alive (fits_of_safe hs hb), ht⟩, aliveT⟩

theorem markerWritten_fault (s : State) : (markerWritten s).fault = s.fault := by
  unfold markerWritten
  split <;> rfl

theorem safe_run_succeeds {bs : List Byte} (alive : s.fault = false) (h : SafeLengths s bs) : ∃ t, Succeeded s t bs := by
  obtain ⟨u, hu, aliveU⟩ :=
    safe_pushes_complete bs (s := answered 0 false 0 (started s)) alive (Nat.zero_lt_succ 7) h.entries
  have hrun := (execAll_start_next alive).mpr hu
  obtain ⟨hmod, -, hp, -, hl⟩ := started_pushes_fill alive hrun aliveU
  have hlt : u.fill.toNat < 8 := by omega
  have hmarker : MarkerFits u := fun present => fits_of_safe hlt (hl ▸ h.marker (hp ▸ present))
  exact ⟨_, compress_next.mpr ⟨u, hrun, exec_endRun_fits aliveU (by omega) hmarker⟩, (markerWritten_fault u).trans aliveU⟩

end

/-! ### The statements about the run commands -/

/-- Settles O25: the word is the command's encoding; START takes everything out at an alive block and is ignored at a faulted one. -/
theorem startEmptiesAccumulator : Obligations.StartEmptiesAccumulator :=
  ⟨decode_encode .start, fun _ => ⟨exec_start, fun dead => exec_dead dead .start⟩⟩

/-- Settles O26: the word is the command's encoding, and DRAIN answers the drained state. -/
theorem drainMovesCompleteBytes : Obligations.DrainMovesCompleteBytes :=
  ⟨decode_encode .drain, fun _ => exec_drain⟩

/-- Settles O27: the words are the command's encodings, and the clauses are the two ends of the entry's write. -/
theorem pushEncodesThenDrains : Obligations.PushEncodesThenDrains := by
  refine ⟨fun b => ?_, fun b s alive => ⟨exec_push_fits alive, exec_push_overflows alive⟩⟩
  exact (congrArg decode (append_byte_eq_assemble 0x32 b)).trans (decode_encode (.push b))

/-- Settles O28: the word is the command's encoding, and the clauses are the two ends of the marker's write. -/
theorem endMarksPadsAndDrains : Obligations.EndMarksPadsAndDrains :=
  ⟨decode_encode .endRun, fun _ alive hs => ⟨exec_endRun_fits alive hs, exec_endRun_overflows alive⟩⟩

/-- Settles O29: the drain is at a byte boundary, so FILL is 0 and every bit of ACC is dead. -/
theorem endLeavesEmptyAccumulator : Obligations.EndLeavesEmptyAccumulator := by
  intro s t alive hs h ht
  have hmarker := markerFits_of_endRun alive h ht
  cases (exec_endRun_fits alive hs hmarker).symm.trans h
  have hfill : (ended s).fill = 0 := ended_fill hs hmarker
  refine ⟨hfill, fun hdead hw => ?_, fun hout => ?_⟩
  · exact acc_eq_zero_of_deadZero ((packs_ended hs hmarker fun _ => hw).deadZero trivial hdead) hfill
  · have hdrain : (ended s).out ≠ (padded (markerWritten s)).out := by rwa [padded_markerWritten_out]
    exact acc_eq_zero_of_deadZero (deadZero_drained_of_out_ne hdrain) hfill

/-- Settles O30: START empties, the appending commands end in a drain, END drains at a byte boundary, and the count of a run's bits is
that of its packed codes. -/
theorem fillBetweenCommands : Obligations.FillBetweenCommands := by
  refine ⟨fun i s t alive hs h ht => ⟨fun hi => ?_, ?_⟩, fun bs s t alive h ht => (started_pushes_fill alive h ht).1⟩
  · cases exec_outcome h with
    | ignored dead => exact absurd (alive.symm.trans dead) (by decide)
    | raised => cases ht
    | completed j u _ hj _ =>
      subst hj
      have hdrain : (drained u).fill.toNat ≤ 7 := Nat.le_of_lt_succ (drained_fill_lt u)
      cases j with
      | drain | push | endRun => exact hdrain
      | start => exact Nat.zero_le 7
      | write | readb | boff | enc | term | fin | next => simp [appends] at hi
  · rintro (rfl | rfl)
    · cases (exec_start alive).symm.trans h
      rfl
    · exact (endLeavesEmptyAccumulator s t alive hs h ht).1

/-! ### The statements about runs -/

/-- Settles O31: the bits a run packs are its output, START having emptied the accumulator and END leaving nothing. -/
theorem runOutputIsPackedStream : Obligations.RunOutputIsPackedStream := by
  intro bs s t hp h
  obtain ⟨bytes, hout, -, hbits⟩ := run_out hp.alive h
  exact ⟨bytes, hout, hbits hp⟩

/-- Settles O32: the packed bits of a run are counted in whole bytes, and past the first `L` stand the zeros of the padding. -/
theorem runOutputLength : Obligations.RunOutputLength := by
  intro bs s t alive h
  obtain ⟨bytes, hout, hcount, hbits⟩ := run_out alive h
  have hL : (dataBits s bs ++ markerBits s).length = dataLength s bs + markerLength s := by
    rw [List.length_append, length_dataBits, length_markerBits]
  refine ⟨bytes, hout, ?_, fun hp => ?_⟩
  · rw [zeroPadded, List.length_append, List.length_replicate, hL] at hcount
    omega
  · rw [hbits hp, zeroPadded, hL]
    exact List.drop_left' hL

/-- Settles O33: safe lengths always fit beside the at most 7 bits left over, and FILL inside a run is the count of its bits mod 8. -/
theorem safeLengthsNeverOverflow : Obligations.SafeLengthsNeverOverflow := by
  refine ⟨fun bs s alive => safe_run_succeeds alive, fun bs b s t u alive h ht hu => ?_⟩
  obtain ⟨hfill, hconfig⟩ := started_pushes_fill alive h ht
  rw [← hfill, ← tblRead_of_config hconfig b]
  refine ⟨fits_of_push ht hu, fun hfits => ?_⟩
  cases (exec_push_fits ht hfits).symm.trans hu
  exact ht

/-- Settles O34: the run ends at a byte boundary with no dead bit set. -/
theorem runEndsEmpty : Obligations.RunEndsEmpty := by
  intro bs s t hp h
  obtain ⟨hpack, hfill, hlast⟩ := run_packs hp.alive h
  have hdead : DeadZero t := hpack.deadZero hp (deadZero_of_acc_zero rfl)
  exact ⟨acc_eq_zero_of_deadZero hdead hfill, hfill, h.2, hlast⟩

end Sys2Proof.Proofs

/-! SUPPORT. Two runs side by side (42_run.md R101, R109): what a relation kept by every command says of whole runs, the cause that an alive
block still carries, and the finer commands that leave what PUSH and END leave. -/

namespace Sys2Proof.Proofs

open Sys2Proof Sys2Proof.Machine Sys2Proof.Safety

/-! ### A relation over a sequence of commands -/

/-- What every command keeps of two states holds after every sequence. -/
theorem execAll_rel {R : State → State → Prop} (step : ∀ i {u u'}, R u u' → R (execResult i u) (execResult i u'))
    (is : List Instr) : ∀ {s s' t t' : State}, R s s' → execAll is s = .next t → execAll is s' = .next t' → R t t' := by
  induction is with
  | nil =>
    intro s s' t t' h ht ht'
    cases ht
    cases ht'
    exact h
  | cons i is ih =>
    intro s s' t t' h ht ht'
    rw [execAll_cons] at ht ht'
    exact ih (step i h) ht ht'

theorem execAll_next (is : List Instr) : ∀ s : State, ∃ t, execAll is s = .next t := by
  induction is with
  | nil => exact fun s => ⟨s, rfl⟩
  | cons i is ih =>
    intro s
    rw [execAll_cons]
    exact ih _

section
variable {i : Instr} {s u : State}

theorem execResult_dead (dead : s.fault = true) : execResult i s = ignore s :=
  command_faulted dead

theorem execResult_raises (alive : s.fault = false) (h : writePhase i s = none) :
    execResult i s = raise causeOverflow s := by
  rw [execResult, command_alive alive, h, settle_none]

theorem execResult_completes (alive : s.fault = false) (h : writePhase i s = some u) : execResult i s = finish i u := by
  rw [execResult, command_alive alive, h, settle_some]

end

/-! ### The cause an alive block carries -/

/-- `s` with another CAUSE. -/
def withCause (c : BitVec 2) (s : State) : State :=
  { s with cause := c }

theorem writeBits_withCause (c : BitVec 2) (v : Word) (n : Len) (s : State) :
    writeBits v n (withCause c s) = (writeBits v n s).map (withCause c) := by
  by_cases h : Fits n s
  · rw [writeBits_fits h, writeBits_fits (s := withCause c s) h]
    rfl
  · rw [writeBits_overflows h, writeBits_overflows (s := withCause c s) h]
    rfl

theorem termBits_withCause (c : BitVec 2) (s : State) :
    termBits (withCause c s) = (termBits s).map (withCause c) := by
  rw [termBits_ite, termBits_ite, apply_ite (Option.map _), ← writeBits_withCause]
  rfl

theorem padBits_withCause (c : BitVec 2) (s : State) : padBits (withCause c s) = (padBits s).map (withCause c) := by
  rw [padBits_ite, padBits_ite, apply_ite (Option.map _), ← writeBits_withCause]
  rfl

/-- No write looks at CAUSE. -/
theorem writePhase_withCause (c : BitVec 2) (i : Instr) (s : State) :
    writePhase i (withCause c s) = (writePhase i s).map (withCause c) := by
  cases i with
  | write | enc | push => exact writeBits_withCause c _ _ s
  | term => exact termBits_withCause c s
  | fin => exact padBits_withCause c s
  | endRun =>
    rw [writePhase, writePhase, termBits_withCause, Option.bind_map, Option.map_bind]
    exact congrArg _ (funext (padBits_withCause c))
  | readb | boff | next | start | drain => rfl

theorem finish_withCause (c : BitVec 2) (i : Instr) (u : State) : finish i (withCause c u) = withCause c (finish i u) := by
  cases i <;> rfl

/-- `v` up to the CAUSE of a block that is alive, where nothing reads it (R25). -/
def SameUpToIdleCause (v u : State) : Prop :=
  u = v ∨ (v.fault = false ∧ ∃ c, u = withCause c v)

theorem sameUpToIdleCause_withCause (c : BitVec 2) {s : State} (alive : s.fault = false) :
    SameUpToIdleCause (withCause c s) s :=
  .inr ⟨alive, s.cause, rfl⟩

/-- A command that completes keeps the two causes, and one that raises writes the same one over both (R124). -/
theorem sameUpToIdleCause_execResult (i : Instr) {v u : State} (h : SameUpToIdleCause v u) :
    SameUpToIdleCause (execResult i v) (execResult i u) := by
  obtain rfl | ⟨alive, c, rfl⟩ := h
  · exact .inl rfl
  have alive' : (withCause c v).fault = false := alive
  have hphase := writePhase_withCause c i v
  cases hw : writePhase i v with
  | none =>
    rw [hw] at hphase
    rw [execResult_raises alive hw, execResult_raises alive' hphase]
    exact .inl rfl
  | some w =>
    rw [hw] at hphase
    rw [execResult_completes alive hw, execResult_completes alive' hphase, finish_withCause]
    exact .inr ⟨(finish_fault hw).trans alive, c, rfl⟩

/-- START leaves two alive blocks alike, but for the cause they carry (R102). -/
theorem grownAlike_started {s s' : State} (alive : s.fault = false) (alive' : s'.fault = false)
    (h : SameConfiguration s s') :
    GrownAlike s s' (answered 0 false 0 (started s)) (withCause s.cause (answered 0 false 0 (started s'))) :=
  ⟨⟨rfl, rfl, alive'.trans alive.symm, rfl⟩, h, ⟨[], (List.append_nil _).symm, (List.append_nil _).symm⟩,
    [⟨0, false, 0⟩], rfl, rfl⟩

/-! ### States that differ in the responses -/

/-- `u'` is `u` with other responses. -/
def SameButResponses (u u' : State) : Prop :=
  ∃ rs, u' = { u with resps := rs }

theorem SameButResponses.trans {u v w : State} (h : SameButResponses u v) (h' : SameButResponses v w) :
    SameButResponses u w := by
  obtain ⟨_, rfl⟩ := h
  obtain ⟨rs, rfl⟩ := h'
  exact ⟨rs, rfl⟩

theorem congruence_sameButResponses : Congruence SameButResponses where
  fill h := by
    obtain ⟨_, rfl⟩ := h
    rfl
  fault h := by
    obtain ⟨_, rfl⟩ := h
    rfl
  cause h := by
    obtain ⟨_, rfl⟩ := h
    rfl
  config h := by
    obtain ⟨_, rfl⟩ := h
    exact ⟨rfl, rfl, rfl, rfl⟩
  response h k i := by
    obtain ⟨_, rfl⟩ := h
    cases i <;> rfl
  write h v n _ := by
    obtain ⟨rs, rfl⟩ := h
    exact ⟨rs, rfl⟩
  take h i := by
    obtain ⟨rs, rfl⟩ := h
    exact ⟨rs, by cases i <;> rfl⟩
  respond h r := by
    obtain ⟨rs, rfl⟩ := h
    exact ⟨rs ++ [r], rfl⟩
  setFault h c := by
    obtain ⟨rs, rfl⟩ := h
    exact ⟨rs, rfl⟩

/-! ### The finer commands -/

/-- The finer commands of one command of a run (R101). -/
def finer : Instr → List Instr
  | .push b => [.enc b, .drain]
  | .endRun => [.term, .fin, .drain]
  | i => [i]

theorem finerCommands_eq (bs : List Byte) : finerCommands bs = (compress bs).flatMap finer := by
  simp [finerCommands, compress, finer, List.flatMap_map]

theorem finer_push (b : Byte) (s : State) :
    SameButResponses (execResult (.push b) s) (execResult .drain (execResult (.enc b) s)) := by
  cases hf : s.fault with
  | true =>
    rw [execResult_dead hf, execResult_dead hf, execResult_dead (s := ignore s) hf]
    exact ⟨_, rfl⟩
  | false =>
    cases hw : encBits b s with
    | none =>
      rw [execResult_raises (i := .push b) hf hw, execResult_raises (i := .enc b) hf hw, execResult_dead rfl]
      exact ⟨_, rfl⟩
    | some u =>
      have alive : (finish (.enc b) u).fault = false := (finish_fault (i := .enc b) hw).trans hf
      rw [execResult_completes (i := .push b) hf hw, execResult_completes (i := .enc b) hf hw,
        execResult_completes alive rfl]
      exact ⟨_, rfl⟩

/-- Where the padding raises, the marker has written nothing: a marker that fits leaves FILL at most 32 (R95). -/
theorem termBits_unchanged_of_padBits_none {s u : State} (h : termBits s = some u) : padBits u = none → u = s := by
  refine termBits_induct (P := fun u => padBits u = none → u = s) h (fun _ => rfl) fun _ hf hpad => ?_
  rw [padBits_eq ((written_fill hf).trans_le hf.2)] at hpad
  cases hpad

theorem writePhase_endRun {s u : State} (h : termBits s = some u) : writePhase .endRun s = padBits u := by
  rw [writePhase, h, Option.bind_some]

theorem finer_endRun (s : State) :
    SameButResponses (execResult .endRun s) (execResult .drain (execResult .fin (execResult .term s))) := by
  cases hf : s.fault with
  | true =>
    rw [execResult_dead hf, execResult_dead hf, execResult_dead (s := ignore s) hf,
      execResult_dead (s := ignore (ignore s)) hf]
    exact ⟨_, rfl⟩
  | false =>
    cases hterm : termBits s with
    | none =>
      rw [execResult_raises (i := .endRun) hf (by rw [writePhase, hterm, Option.bind_none]),
        execResult_raises (i := .term) hf hterm, execResult_dead rfl, execResult_dead rfl]
      exact ⟨_, rfl⟩
    | some u =>
      have hcong := congruence_sameButResponses
      have halive : u.fault = false := (finish_fault (i := .term) hterm).trans hf
      have hanswer : SameButResponses u (finish .term u) := ⟨_, rfl⟩
      rw [execResult_completes (i := .term) hf hterm]
      refine SameButResponses.trans ?_ (hcong.execResult (hcong.execResult hanswer .fin) .drain)
      cases hpad : padBits u with
      | none =>
        cases termBits_unchanged_of_padBits_none hterm hpad
        rw [execResult_raises hf ((writePhase_endRun hterm).trans hpad),
          execResult_raises (i := .fin) hf hpad, execResult_dead rfl]
        exact ⟨_, rfl⟩
      | some w =>
        have alive : (finish .fin w).fault = false := (finish_fault (i := .fin) hpad).trans halive
        rw [execResult_completes hf ((writePhase_endRun hterm).trans hpad),
          execResult_completes (i := .fin) halive hpad, execResult_completes alive rfl]
        exact ⟨_, rfl⟩

/-- Each command leaves what its finer commands leave (R105, R106). -/
theorem finer_sameButResponses {i : Instr} {s t : State} (h : execAll (finer i) s = .next t) :
    SameButResponses (execResult i s) t := by
  cases i with
  | push b =>
    rw [finer, execAll_cons, execAll_cons] at h
    cases h
    exact finer_push b s
  | endRun =>
    rw [finer, execAll_cons, execAll_cons, execAll_cons] at h
    cases h
    exact finer_endRun s
  | write | readb | boff | enc | term | fin | next | start | drain =>
    simp only [finer, execAll_cons] at h
    cases h
    exact ⟨_, rfl⟩

theorem execAll_finer (is : List Instr) : ∀ {s s' t t' : State}, SameButResponses s s' → execAll is s = .next t →
    execAll (is.flatMap finer) s' = .next t' → SameButResponses t t' := by
  induction is with
  | nil =>
    intro s s' t t' h ht ht'
    cases ht
    cases ht'
    exact h
  | cons i is ih =>
    intro s s' t t' h ht ht'
    rw [execAll_cons] at ht
    rw [List.flatMap_cons] at ht'
    obtain ⟨u, hu, hrest⟩ := execAll_append_next.mp ht'
    exact ih ((congruence_sameButResponses.execResult h i).trans (finer_sameButResponses hu)) ht hrest

/-! ### The statements about two runs -/

/-- Settles O35: after START the two blocks agree but for the cause an alive block carries, so the second run is taken with the cause of
the first, where every command appends and answers alike. -/
theorem runIsPureFunction : Obligations.RunIsPureFunction := by
  intro bs s t s' t' alive alive' hconfig ht ht'
  have hcompress : compress bs = .start :: (bs.map .push ++ [.endRun]) := rfl
  rw [hcompress, execAll_start_next alive] at ht
  rw [hcompress, execAll_start_next alive'] at ht'
  generalize bs.map Instr.push ++ [Instr.endRun] = rest at ht ht'
  obtain ⟨w, hw⟩ := execAll_next rest (withCause s.cause (answered 0 false 0 (started s')))
  have hgrown := grownAlike_started alive alive' hconfig
  have hcause := sameUpToIdleCause_withCause s.cause (s := answered 0 false 0 (started s')) alive'
  obtain ⟨⟨ha, hf, hfault, -⟩, -, ⟨bytes, ho, ho'⟩, answers, hr, hr'⟩ :=
    execAll_rel (R := GrownAlike s s') (fun i {_ _} h => (congruence_grownAlike s s').execResult h i) rest hgrown ht hw
  refine ⟨bytes, answers, ho, ?_⟩
  obtain rfl | ⟨-, c, rfl⟩ := execAll_rel sameUpToIdleCause_execResult rest hcause hw ht'
  · exact ⟨ho', hr, hr', ha, hf, hfault⟩
  · exact ⟨ho', hr, hr', ha, hf, hfault⟩

/-- Settles O36: each command of a run leaves what its finer commands leave, and no command looks at the responses. -/
theorem finerCommandsGiveSameRun : Obligations.FinerCommandsGiveSameRun := by
  intro bs s t u ht hu
  rw [finerCommands_eq] at hu
  obtain ⟨rs, rfl⟩ := execAll_finer (compress bs) ⟨s.resps, rfl⟩ ht hu
  rfl

end Sys2Proof.Proofs

/-! SUPPORT. Faults (60_exceptions.md R120 to R128): the two ends of a command at an alive block, and the writes that raise
`AccumulatorOverflow`. -/

namespace Sys2Proof.Proofs

open Sys2Proof Sys2Proof.Machine Sys2Proof.Safety

/-! ### The writes that raise -/

section
variable {i : Instr} {s t : State}

theorem writeBits_eq_none_iff {v : Word} {n : Len} :
    writeBits v n s = none ↔ 32 ≤ n.toNat ∨ 32 < s.fill.toNat + n.toNat := by
  rw [← overflows_eq_true, writeBits]
  simp

theorem termBits_eq_none_iff :
    termBits s = none ↔ s.tmPresent = true ∧ (32 ≤ s.tmLen.toNat ∨ 32 < s.fill.toNat + s.tmLen.toNat) := by
  rw [termBits_ite, ← writeBits_eq_none_iff (v := s.tmCode)]
  cases s.tmPresent <;> simp

/-- Padding never raises where FILL is at most 32, which a marker that was written leaves it (R95, R106). -/
theorem padBits_ne_none (hs : s.fill.toNat ≤ 32) : padBits s ≠ none := by
  rw [padBits_eq hs]
  exact Option.some_ne_none _

/-- The condition of R120, command by command. -/
theorem writePhase_eq_none_iff (hs : s.fill.toNat ≤ 32) : writePhase i s = none ↔ raisesOverflow s i := by
  cases i with
  | write | enc | push => exact writeBits_eq_none_iff
  | term => exact termBits_eq_none_iff
  | fin => exact iff_of_false (padBits_ne_none hs) id
  | endRun =>
    have hpad : ∀ u, termBits s = some u → padBits u ≠ none := fun u hu =>
      padBits_ne_none (fill_le_of_writePhase (i := .term) hu hs)
    refine (Option.bind_eq_none_iff.trans ⟨fun h => ?_, fun h u hu => ?_⟩).trans termBits_eq_none_iff
    · exact Option.eq_none_iff_forall_ne_some.mpr fun u hu => hpad u hu (h u hu)
    · exact absurd (h.symm.trans hu) nofun
  | readb | boff | next | start | drain => exact iff_of_false nofun id

/-! ### What a word and a command at an alive block lead to -/

theorem stepWord_outcome {w : CmdWord} (h : stepWord w s = .next t) : Outcome (decode w = .command ·) s t := by
  cases (stepWord_eq w s).symm.trans h
  exact wordResult_outcome w s

/-- A command at an alive block raises, as `AccumulatorOverflow` alone, exactly where its write phase does; otherwise it stays alive. -/
theorem exec_raised_or_completed (alive : s.fault = false) (h : exec i s = .next t) :
    (writePhase i s = none ∧ t = faulted 1 s) ∨ (writePhase i s ≠ none ∧ t.fault = false) := by
  cases hw : writePhase i s with
  | none =>
    cases (exec_raises alive hw).symm.trans h
    exact .inl ⟨rfl, rfl⟩
  | some u =>
    rw [exec_alive alive, hw, settle_some] at h
    cases h
    exact .inr ⟨nofun, (finish_fault hw).trans alive⟩

theorem eq_faulted_of_exec (alive : s.fault = false) (h : exec i s = .next t) (ht : t.fault = true) : t = faulted 1 s := by
  obtain ⟨-, hfaulted⟩ | ⟨-, halive⟩ := exec_raised_or_completed alive h
  · exact hfaulted
  · exact absurd (halive.symm.trans ht) (by decide)

end

/-! ### The statements about faults -/

/-- Settles O8: every word is answered alike, and a run that ends alive began alive. -/
theorem faultedBlockIgnoresEveryWord : Obligations.FaultedBlockIgnoresEveryWord := by
  refine fun s dead => ⟨stepWord_dead dead, fun bs t h => ?_⟩
  obtain ⟨hrun, ht⟩ := h
  exact absurd ((alive_of_execAll _ hrun ht).symm.trans dead) (by decide)

/-- Settles O9: of the outcomes of a word, only fault entry leads from an alive block to a faulted one. -/
theorem faultEntryIsPrecise : Obligations.FaultEntryIsPrecise := by
  intro w s t alive h ht
  cases stepWord_outcome h with
  | ignored dead => exact absurd (alive.symm.trans dead) (by decide)
  | raised c _ hc => exact ⟨c, hc, rfl⟩
  | completed i u _ _ hw => exact absurd (((finish_fault hw).trans alive).symm.trans ht) (by decide)

/-- Settles O10: the two tests in their order, then the one fault of a command's own rule. -/
theorem faultPriority : Obligations.FaultPriority := by
  refine fun w s t h => ⟨fun dead => ?_, fun alive hw => ?_, fun alive hw ht => ?_⟩
  · cases (stepWord_dead dead w).symm.trans h
    exact ⟨dead, rfl⟩
  · obtain ⟨why, hwhy⟩ := exists_illegal_iff_legalWord.mpr hw
    cases (stepWord_illegal alive hwhy).symm.trans h
    exact ⟨rfl, rfl⟩
  · obtain ⟨i, hi⟩ := legalWord_iff.mp hw
    rw [stepWord, hi] at h
    rw [eq_faulted_of_exec alive h ht]
    rfl

/-- Settles O11: a command faults exactly where its write phase raises, and that is the condition of R120. -/
theorem overflowExactly : Obligations.OverflowExactly := by
  refine fun i s t alive hs h => ⟨?_, eq_faulted_of_exec alive h⟩
  rw [← writePhase_eq_none_iff hs]
  obtain ⟨hw, rfl⟩ | ⟨hw, halive⟩ := exec_raised_or_completed alive h
  · exact iff_of_true rfl hw
  · exact iff_of_false (Bool.eq_false_iff.mp halive) hw

/-- Settles O38: with no length to write the run cannot overflow, and no bits pack into no bytes. -/
theorem emptyRunAppendsNothing : Obligations.EmptyRunAppendsNothing := by
  intro s alive absent
  have hsafe : SafeLengths s [] := ⟨nofun, fun present => absurd (absent.symm.trans present) (by decide)⟩
  obtain ⟨t, ht⟩ := safe_run_succeeds alive hsafe
  obtain ⟨bytes, hout, hcount, -⟩ := run_out alive ht
  have hbits : dataBits s [] ++ markerBits s = [] := by simp [dataBits, markerBits, absent]
  have hnil : bytes = [] := by simpa [hbits, zeroPadded] using hcount
  exact ⟨t, ht, by rw [hout, hnil, List.append_nil]⟩

end Sys2Proof.Proofs
